-- ==== Sys2Proof/Word.lean ====
section
/-! DEFINITION. The word types of TinyRV1 (spec/00_scope.md R3, R5; spec/10_state.md R20).

Every value is a bit vector of a stated width, bit 0 the least significant. `+` and `*` of `BitVec` are
addition and multiplication modulo 2^32, which is what R8 makes of the manual's `+` and `×` (log entry 15). -/

namespace Sys2Proof

/-- A 32-bit value: the only data format (R3). -/
abbrev Word := BitVec 32

/-- One location of memory (R35). -/
abbrev Byte := BitVec 8

/-- A register specifier: the 5-bit number of an `rd`, `rs1` or `rs2` field (R82, R101). -/
abbrev Reg := BitVec 5

/-- A CSR number: the 12-bit field `inst[31:20]`, not extended (R29, R90). -/
abbrev CsrNum := BitVec 12

/-- One of the three channels `0 .. 2` of each direction (R29). -/
abbrev Channel := Fin 3

end Sys2Proof
end

