-- ==== Sys2Proof/Syntax.lean ====
section
/-! DEFINITION. The ten instructions of TinyRV1 (spec/00_scope.md R2), one constructor per row of
spec/opcode_table.json, in the manual's order.

An immediate operand is the 32-bit value R86 to R89 build (R101); which 32-bit values an instruction's immediate
type can carry is WellFormed's matter. -/

namespace Sys2Proof

/-- A TinyRV1 instruction with its operands. -/
inductive Instr where
  /-- `csrr rd, csr` (R120) -/
  | csrr (rd : Reg) (csr : CsrNum)
  /-- `csrw csr, rs1` (R121) -/
  | csrw (csr : CsrNum) (rs1 : Reg)
  /-- `add rd, rs1, rs2` (R130) -/
  | add (rd rs1 rs2 : Reg)
  /-- `addi rd, rs1, imm` (R131), `imm` an I-immediate -/
  | addi (rd rs1 : Reg) (imm : Word)
  /-- `mul rd, rs1, rs2` (R132) -/
  | mul (rd rs1 rs2 : Reg)
  /-- `lw rd, imm(rs1)` (R140), `imm` an I-immediate -/
  | lw (rd rs1 : Reg) (imm : Word)
  /-- `sw rs2, imm(rs1)` (R141), `imm` an S-immediate -/
  | sw (rs1 rs2 : Reg) (imm : Word)
  /-- `jal rd, addr` (R150), `imm` a J-immediate -/
  | jal (rd : Reg) (imm : Word)
  /-- `jr rs1` (R151) -/
  | jr (rs1 : Reg)
  /-- `bne rs1, rs2, addr` (R152), `imm` a B-immediate -/
  | bne (rs1 rs2 : Reg) (imm : Word)
deriving DecidableEq, Repr

/-- NOP, the only pseudo-instruction: `addi x0, x0, 0` (R99). -/
def Instr.nop : Instr := .addi 0#5 0#5 0#32

end Sys2Proof
end

