-- ==== Sys2Proof/WellFormed.lean ====
section
/-! DEFINITION. Which terms of `Instr` have a word: the ranges of the immediates (spec/30_encoding.md R91). Every
register number and every CSR number may stand in its field (spec/10_state.md R23; spec/30_encoding.md R96). -/

namespace Sys2Proof

/-- The range of an I- or S-immediate: `-2048 .. 2047` (R91). -/
def fitsImm12 (imm : Word) : Bool := decide (-2048 ≤ imm.toInt ∧ imm.toInt ≤ 2047)

/-- The range of a B-immediate: `-4096 .. 4094`, even (R91). -/
def fitsImmB (imm : Word) : Bool :=
  decide (-4096 ≤ imm.toInt ∧ imm.toInt ≤ 4094 ∧ imm.toInt % 2 = 0)

/-- The range of a J-immediate: `-1048576 .. 1048574`, even (R91). -/
def fitsImmJ (imm : Word) : Bool :=
  decide (-1048576 ≤ imm.toInt ∧ imm.toInt ≤ 1048574 ∧ imm.toInt % 2 = 0)

/-- The instruction's operands fit their fields (R83, R91). -/
def Instr.wellFormed : Instr → Bool
  | .csrr _ _ => true
  | .csrw _ _ => true
  | .add _ _ _ => true
  | .addi _ _ imm => fitsImm12 imm
  | .mul _ _ _ => true
  | .lw _ _ imm => fitsImm12 imm
  | .sw _ _ imm => fitsImm12 imm
  | .jal _ imm => fitsImmJ imm
  | .jr _ => true
  | .bne _ _ imm => fitsImmB imm

end Sys2Proof
end

