-- ==== Sys2Proof/Decode.lean ====
section
/-! DEFINITION. Decoding and encoding (spec/30_encoding.md R80 to R101).

The decoder is R25 step 3: the row of the opcode table with `(inst & mask) = match`, its operands read by the
instruction type and the immediate type. The encoder is written from the same tables. -/

namespace Sys2Proof

/-! ## Byte order (spec/20_memory.md R50, R51) -/

/-- The value of four bytes, the first at the lowest address: little endian (R50). -/
def wordOfBytes (b0 b1 b2 b3 : Byte) : Word := b3 ++ b2 ++ b1 ++ b0

/-- The byte of `v` that lies `k` bytes above its address (R50). -/
def wordByte (v : Word) (k : Nat) : Byte := v.extractLsb' (8 * k) 8

/-! ## Fields (R82, R90) -/

def fieldOpcode (w : Word) : BitVec 7 := w.extractLsb' 0 7
def fieldRd (w : Word) : Reg := w.extractLsb' 7 5
def fieldFunct3 (w : Word) : BitVec 3 := w.extractLsb' 12 3
def fieldRs1 (w : Word) : Reg := w.extractLsb' 15 5
def fieldRs2 (w : Word) : Reg := w.extractLsb' 20 5
def fieldFunct7 (w : Word) : BitVec 7 := w.extractLsb' 25 7
/-- The `csr` field, the number itself, not extended (R90). -/
def fieldCsr (w : Word) : CsrNum := w.extractLsb' 20 12

/-! ## Immediates (R85 to R89), each in the rule's "Equivalently" form -/

/-- I-immediate: `sext_32(inst[31:20])` (R86). -/
def immI (w : Word) : Word := (w.extractLsb' 20 12).signExtend 32

/-- S-immediate: `sext_32` of `inst[31:25], inst[11:7]` (R87). -/
def immS (w : Word) : Word := (w.extractLsb' 25 7 ++ w.extractLsb' 7 5).signExtend 32

/-- J-immediate: `sext_32` of `inst[31], inst[19:12], inst[20], inst[30:21], 0` (R88). -/
def immJ (w : Word) : Word :=
  (w.extractLsb' 31 1 ++ w.extractLsb' 12 8 ++ w.extractLsb' 20 1 ++ w.extractLsb' 21 10 ++ 0#1).signExtend 32

/-- B-immediate: `sext_32` of `inst[31], inst[7], inst[30:25], inst[11:8], 0` (R89). -/
def immB (w : Word) : Word :=
  (w.extractLsb' 31 1 ++ w.extractLsb' 7 1 ++ w.extractLsb' 25 6 ++ w.extractLsb' 8 4 ++ 0#1).signExtend 32

/-! ## The opcode map (R92) -/

/-- The ten mnemonics, in the manual's order (R2). -/
inductive Mnemonic where
  | csrr | csrw | add | addi | mul | lw | sw | jal | jr | bne
deriving DecidableEq, Repr

/-- One row of the opcode map: a word `w` encodes the instruction when `(w & mask) = pattern` (R92). -/
structure OpRow where
  mnemonic : Mnemonic
  pattern : Word
  mask : Word
deriving DecidableEq, Repr

/-- The opcode map of R92. -/
def opcodeMap : List OpRow :=
  [ { mnemonic := .csrr, pattern := 0x00002073#32, mask := 0x000ff07f#32 },
    { mnemonic := .csrw, pattern := 0x00001073#32, mask := 0x00007fff#32 },
    { mnemonic := .add, pattern := 0x00000033#32, mask := 0xfe00707f#32 },
    { mnemonic := .addi, pattern := 0x00000013#32, mask := 0x0000707f#32 },
    { mnemonic := .mul, pattern := 0x02000033#32, mask := 0xfe00707f#32 },
    { mnemonic := .lw, pattern := 0x00002003#32, mask := 0x0000707f#32 },
    { mnemonic := .sw, pattern := 0x00002023#32, mask := 0x0000707f#32 },
    { mnemonic := .jal, pattern := 0x0000006f#32, mask := 0x0000007f#32 },
    { mnemonic := .jr, pattern := 0x00000067#32, mask := 0xfff07fff#32 },
    { mnemonic := .bne, pattern := 0x00001063#32, mask := 0x0000707f#32 } ]

/-- The word encodes the row's instruction (R92). -/
def OpRow.matches (row : OpRow) (w : Word) : Bool := w &&& row.mask == row.pattern

/-- The row of the opcode map the word matches; at most one does (R94). -/
def rowOf (w : Word) : Option OpRow := opcodeMap.find? (·.matches w)

/-- The instruction with the operands read from its word by its instruction type and immediate type (R83). -/
def readOperands (m : Mnemonic) (w : Word) : Instr :=
  match m with
  | .csrr => .csrr (fieldRd w) (fieldCsr w)
  | .csrw => .csrw (fieldCsr w) (fieldRs1 w)
  | .add => .add (fieldRd w) (fieldRs1 w) (fieldRs2 w)
  | .addi => .addi (fieldRd w) (fieldRs1 w) (immI w)
  | .mul => .mul (fieldRd w) (fieldRs1 w) (fieldRs2 w)
  | .lw => .lw (fieldRd w) (fieldRs1 w) (immI w)
  | .sw => .sw (fieldRs1 w) (fieldRs2 w) (immS w)
  | .jal => .jal (fieldRd w) (immJ w)
  | .jr => .jr (fieldRs1 w)
  | .bne => .bne (fieldRs1 w) (fieldRs2 w) (immB w)

/-- Why bytes are no instruction. -/
inductive DecodeError where
  /-- The word matches no row of the opcode map (R95). -/
  | illegalInstruction (inst : Word)
  /-- Fewer than the four bytes every instruction has (R80). -/
  | truncated
deriving DecidableEq, Repr

/-- The instruction a word encodes, or its rejection by name (R25 step 3, R95; D5, D6, log entry 12). -/
def decode (w : Word) : Except DecodeError Instr :=
  match rowOf w with
  | some row => .ok (readOperands row.mnemonic w)
  | none => .error (.illegalInstruction w)

/-- The instruction at the front of a list of bytes, lowest address first, and the bytes after it (R51, R80). -/
def decodeBytes : List Byte → Except DecodeError (Instr × List Byte)
  | b0 :: b1 :: b2 :: b3 :: rest =>
    match decode (wordOfBytes b0 b1 b2 b3) with
    | .ok i => .ok (i, rest)
    | .error e => .error e
  | _ => .error .truncated

/-! ## Encoding (R82, R83, R86 to R92) -/

/-- R-type (R82). -/
def encodeR (funct7 : BitVec 7) (rs2 rs1 : Reg) (funct3 : BitVec 3) (rd : Reg) (opcode : BitVec 7) : Word :=
  funct7 ++ rs2 ++ rs1 ++ funct3 ++ rd ++ opcode

/-- I-type (R82). -/
def encodeI (imm : BitVec 12) (rs1 : Reg) (funct3 : BitVec 3) (rd : Reg) (opcode : BitVec 7) : Word :=
  imm ++ rs1 ++ funct3 ++ rd ++ opcode

/-- S-type with the two parts of its immediate field (R82). -/
def encodeS (hi : BitVec 7) (rs2 rs1 : Reg) (funct3 : BitVec 3) (lo : BitVec 5) (opcode : BitVec 7) : Word :=
  hi ++ rs2 ++ rs1 ++ funct3 ++ lo ++ opcode

/-- U-type (R82). -/
def encodeU (imm : BitVec 20) (rd : Reg) (opcode : BitVec 7) : Word := imm ++ rd ++ opcode

/-- The upper part of an S-type word's immediate field for a B-immediate: `imm[12], imm[10:5]` (inverse of R89). -/
def scatterBHi (imm : Word) : BitVec 7 := imm.extractLsb' 12 1 ++ imm.extractLsb' 5 6

/-- The lower part for a B-immediate: `imm[4:1], imm[11]` (inverse of R89). -/
def scatterBLo (imm : Word) : BitVec 5 := imm.extractLsb' 1 4 ++ imm.extractLsb' 11 1

/-- The U-type field for a J-immediate: `imm[20], imm[10:1], imm[11], imm[19:12]` (inverse of R88). -/
def scatterJ (imm : Word) : BitVec 20 :=
  imm.extractLsb' 20 1 ++ imm.extractLsb' 1 10 ++ imm.extractLsb' 11 1 ++ imm.extractLsb' 12 8

/-- The word of an instruction; for a well-formed one, decoding gives it back (R92, R98). -/
def encode : Instr → Word
  | .csrr rd csr => encodeI csr 0b00000#5 0b010#3 rd 0b1110011#7
  | .csrw csr rs1 => encodeI csr rs1 0b001#3 0b00000#5 0b1110011#7
  | .add rd rs1 rs2 => encodeR 0b0000000#7 rs2 rs1 0b000#3 rd 0b0110011#7
  | .addi rd rs1 imm => encodeI (imm.extractLsb' 0 12) rs1 0b000#3 rd 0b0010011#7
  | .mul rd rs1 rs2 => encodeR 0b0000001#7 rs2 rs1 0b000#3 rd 0b0110011#7
  | .lw rd rs1 imm => encodeI (imm.extractLsb' 0 12) rs1 0b010#3 rd 0b0000011#7
  | .sw rs1 rs2 imm => encodeS (imm.extractLsb' 5 7) rs2 rs1 0b010#3 (imm.extractLsb' 0 5) 0b0100011#7
  | .jal rd imm => encodeU (scatterJ imm) rd 0b1101111#7
  | .jr rs1 => encodeI 0b000000000000#12 rs1 0b000#3 0b00000#5 0b1100111#7
  | .bne rs1 rs2 imm => encodeS (scatterBHi imm) rs2 rs1 0b001#3 (scatterBLo imm) 0b1100011#7

/-- The bytes of an instruction as memory holds them, lowest address first (R50, R51). -/
def encodeBytes (i : Instr) : List Byte :=
  [wordByte (encode i) 0, wordByte (encode i) 1, wordByte (encode i) 2, wordByte (encode i) 3]

/-! ## The opcode table's numbering of a row's bits -/

/-- The word whose `nbits` low bits are those of `w` and whose other bits are 0. -/
def tableWord (nbits w : Nat) : Word := BitVec.ofNat 32 (w % 2 ^ nbits)

/-- The bytes of `tableWord nbits w` as memory holds them, lowest address first. -/
def tableBytes (nbits w : Nat) : List Byte :=
  let v := tableWord nbits w
  [wordByte v 0, wordByte v 1, wordByte v 2, wordByte v 3]

/-- The instruction the decoder reads from a word of spec/opcode_table.json, laid out in bytes first. -/
def decodeTableWord (nbits w : Nat) : Option Instr :=
  match decodeBytes (tableBytes nbits w) with
  | .ok (i, _) => some i
  | .error _ => none

end Sys2Proof
end

