-- ==== Sys2Proof/Config.lean ====
section
/-! DEFINITION. What is fixed for one machine: the constants the manual states and the open parameters of
spec/00_scope.md R4 (`IN_DEPTH`, `OUT_DEPTH`, `TEXT`; `MEM_INIT` is the argument of `State.launch`, `END_OF_RUN` one of
Safety.lean).

The parameters stand in a structure of plain data that State carries and no step changes, so that a statement
about every state is a statement about every choice of them (D14, D17; log entries 4, 5). -/

namespace Sys2Proof

/-- The number of bytes of memory: addresses `0x00000000` to `0x000fffff` (R35). -/
def memSize : Nat := 0x100000

/-- The value of the program counter after reset (R37). -/
def resetVector : Word := 0x00000000#32

/-- The capacity of a FIFO: "a positive integer or unbounded" (R4, R31, R32). -/
inductive Depth where
  | unbounded
  | slots (n : Nat)
deriving DecidableEq, Repr

/-- A FIFO of this depth that holds `len` elements has room for one more; for an output FIFO this is the manual's
"ready" (R32, D14). -/
def Depth.hasRoom : Depth → Nat → Bool
  | .unbounded, _ => true
  | .slots n, len => decide (len < n)

/-- A FIFO of this depth may hold `len` elements. -/
def Depth.holds : Depth → Nat → Bool
  | .unbounded, _ => true
  | .slots n, len => decide (len ≤ n)

/-- A depth is positive (R4). -/
def Depth.positive : Depth → Bool
  | .unbounded => true
  | .slots n => decide (0 < n)

/-- The open parameters of one machine (R4). -/
structure Config where
  /-- `IN_DEPTH[i]` (R31): bounds the manager only. -/
  inDepth : Vector Depth 3
  /-- `OUT_DEPTH[i]` (R32): decides when CSRW stalls. -/
  outDepth : Vector Depth 3
  /-- `TEXT` (R64): the word addresses of the program, strictly rising. -/
  text : List Nat
deriving DecidableEq, Repr

/-- DESIGN CHOICE (log entries 4, 5): with nothing placed from outside, every FIFO is unbounded and `TEXT` is empty. -/
def Config.initial : Config :=
  { inDepth := Vector.replicate 3 .unbounded, outDepth := Vector.replicate 3 .unbounded, text := [] }

end Sys2Proof
end

