-- ==== Sys2Proof/Machine/State.lean ====
section
/-! DEFINITION. The state of the machine and of the external manager, the reasons a step stops, and reset
(spec/10_state.md R20 to R38; spec/60_exceptions.md R161, R173; spec/70_reset_and_hazards.md R190, R191). -/

namespace Sys2Proof.Machine

/-- Memory (R35): the bytes that hold a value, by address, strictly rising. An unlisted byte holds no value
(R36, R38; log entry 3). -/
abbrev Memory := List Host.Cell

/-- The privilege modes: M-mode only (R170; log entry 23). -/
inductive Mode where
  | machine
deriving DecidableEq, Repr

/-- The direction of a CSR access (R161). -/
inductive CsrDir where
  | read
  | write
deriving DecidableEq, Repr

/-- The model faults of R161, each with the `info` it records. A fault is no architectural event: the run stops, no
register, byte, FIFO or pc changes (R10, R162). All are safe: the model stops where the chip may go on (R161). R161's
`UninitRegRead` is not among them (log entry 2). -/
inductive Fault where
  /-- Raised by the fetch of any instruction when `pc[1:0]` is not 0 (R27, D3). Safe. -/
  | misalignedFetch (pc : Word)
  /-- Raised by fetch, LW and SW above `0x000fffff`, which the manual calls undefined (R53, D4). Safe. -/
  | addressOutOfRange (addr : Word)
  /-- Raised by a fetch outside `TEXT` (R64, D17). Safe. -/
  | fetchOutsideText (pc : Word)
  /-- Raised by fetch and LW when a byte of the word holds no value (R54, R56, D13). Safe. -/
  | uninitMemRead (addr : Word)
  /-- Raised by the decoder for a word of no row of the opcode map (R95, D5, D6). Safe. -/
  | illegalInstruction (inst : Word)
  /-- Raised by LW and SW at an address that is not a multiple of 4 (R57, D2). Safe. -/
  | misalignedAccess (addr : Word)
  /-- Raised by SW into `TEXT` (R64, D17). Safe. -/
  | storeToText (addr : Word)
  /-- Raised by CSRR of `out<i>` and CSRW of `in<i>`, which the manual calls undefined (R33, R34, D8). Safe. -/
  | undefinedCsrAccess (csr : CsrNum) (dir : CsrDir)
  /-- Raised by CSRR and CSRW of a number that is none of the six (R33, R34, D7). Safe. -/
  | unsupportedCsr (csr : CsrNum)
deriving DecidableEq, Repr

/-- The reasons an instruction is refused. -/
inductive Refusal where
  /-- Raised by an arm of `exec` without a meaning; no arm does so. Safe. -/
  | notModelled (mnemonic : String)
deriving DecidableEq, Repr

/-- The external manager's two moves (R31, R32). -/
inductive ManagerMove where
  /-- `ManagerEnq(i, v)`: append `v` at the tail of `inq[i]` (R31). -/
  | enq (i : Channel) (v : Word)
  /-- `ManagerDeq(i)`: take the head of `outq[i]` (R32). -/
  | deq (i : Channel)
deriving DecidableEq, Repr

/-- Whose event comes next: the processor's step or a move of the manager (R195; log entry 8). -/
inductive Turn where
  | processor
  | manager (move : ManagerMove)
deriving DecidableEq, Repr

/-- The processor, its memory, the six FIFOs and the external manager. -/
structure State where
  /-- `x1` to `x31`, `x<i>` at index `i - 1`; `x0` is hardwired and not stored (R20, R21). -/
  regs : Vector Word 31
  /-- The address of the instruction being executed (R24). -/
  pc : Word
  /-- The 1 MB address space (R35). -/
  mem : Memory
  /-- The FIFOs behind `in0`, `in1`, `in2`, heads first (R31). -/
  inq : Vector (List Word) 3
  /-- The FIFOs behind `out0`, `out1`, `out2`, heads first (R32). -/
  outq : Vector (List Word) 3
  /-- The privilege mode (R170). -/
  mode : Mode
  /-- Bookkeeping: which of `x1` to `x31` have been written since reset (R36). No instruction reads it. -/
  written : Vector Bool 31
  /-- The machine's parameters; no step changes them (R4). -/
  config : Config
  /-- The manager's record: the values it has received from each output FIFO, oldest first (R32, R197). -/
  received : Vector (List Word) 3
  /-- The coming events, next first; when none is left every event is a processor step (R195; log entry 8). -/
  schedule : List Turn
deriving DecidableEq, Repr

/-- The machine after reset with the parameters and the memory contents `MEM_INIT` that the launch supplies, and with the
values `powerOn` that `x1` to `x31` happen to hold: "an arbitrary 32-bit value per register, fixed at reset" (R38, R190,
R191, D12). -/
def State.launch (config : Config) (memInit : Memory) (powerOn : Vector Word 31) : State :=
  { regs := powerOn
    pc := resetVector
    mem := memInit
    inq := Vector.replicate 3 []
    outq := Vector.replicate 3 []
    mode := .machine
    written := Vector.replicate 31 false
    config := config
    received := Vector.replicate 3 []
    schedule := [] }

/-- The machine right after reset with nothing placed from outside: memory lists nothing, and the registers' zeros are
the model's choice (log entries 1, 3, 4). -/
def State.reset : State := State.launch Config.initial [] (Vector.replicate 31 0#32)

end Sys2Proof.Machine
end

