-- ==== Sys2Proof/Machine/Ops.lean ====
section
/-! DEFINITION. The primitives of spec/00_scope.md R9 over registers, memory and CSRs, and the manager's moves
(spec/10_state.md R20 to R36; spec/20_memory.md R50 to R64).

Taking an exception and returning from one have no operation here: TinyRV1 has no exception, and a fault must not
jump to any address nor write any register (spec/60_exceptions.md R160, R162). -/

namespace Sys2Proof.Machine

/-- What one event ends in. -/
abbrev Result := Host.Outcome State Fault Refusal

/-! ## Registers (R20, R21, R36) -/

/-- Where `x<r>` is stored; meant for `r` other than 0. -/
def regIndex (r : Reg) : Fin 31 := ⟨r.toNat - 1, by have := r.isLt; omega⟩

/-- `x[r]`: `x0` reads as zero (R21). -/
def State.readReg (s : State) (r : Reg) : Word :=
  if r = 0#5 then 0#32 else s.regs[regIndex r]

/-- The bookkeeping of R36: `x<r>` has been written, or is `x0`, which always holds a value (R21, R23). -/
def State.regWritten (s : State) (r : Reg) : Bool :=
  if r = 0#5 then true else s.written[regIndex r]

/-- `x[r] <- v`: a write of `x0` is discarded (R21). -/
def State.writeReg (s : State) (r : Reg) (v : Word) : State :=
  if r = 0#5 then s
  else { s with regs := s.regs.set (regIndex r) v, written := s.written.set (regIndex r) true }

/-! ## Program counter (R24, R26) -/

/-- `pc <- t`. -/
def State.setPc (s : State) (t : Word) : State := { s with pc := t }

/-- `pc <- pc + 4`. -/
def State.advance (s : State) : State := s.setPc (s.pc + 4#32)

/-! ## Memory (R35, R50 to R57) -/

/-- The byte at an address, or none when it holds no value. -/
def Memory.read : Memory → Nat → Option Byte
  | [], _ => none
  | (a, b) :: rest, k => if k = a then some b else Memory.read rest k

/-- Gives the byte at an address a value and keeps the addresses rising. -/
def Memory.write : Memory → Nat → Byte → Memory
  | [], k, v => [(k, v)]
  | (a, b) :: rest, k, v =>
    if k < a then (k, v) :: (a, b) :: rest
    else if k = a then (k, v) :: rest
    else (a, b) :: Memory.write rest k v

/-- The canonical form: addresses strictly rising, all inside the address space (R35). No entry equals what an
unlisted address reads as, since that is no value. -/
abbrev Memory.wf (m : Memory) : Prop :=
  m.Pairwise (fun c d => c.1 < d.1) ∧ ∀ c ∈ m, c.1 < memSize

/-- The little-endian value of the four bytes at `a`, or none when one of them holds no value (R50, R54). -/
def Memory.readWord (m : Memory) (a : Nat) : Option Word :=
  match m.read a, m.read (a + 1), m.read (a + 2), m.read (a + 3) with
  | some b0, some b1, some b2, some b3 => some (wordOfBytes b0 b1 b2 b3)
  | _, _, _, _ => none

/-- Stores the four bytes of `v` at `a`, little endian (R50, R55). -/
def Memory.writeWord (m : Memory) (a : Nat) (v : Word) : Memory :=
  (((m.write a (wordByte v 0)).write (a + 1) (wordByte v 1)).write (a + 2) (wordByte v 2)).write (a + 3) (wordByte v 3)

/-- `addr[1:0] = 0` (R57). -/
def aligned (addr : Word) : Bool := addr.extractLsb' 0 2 == 0#2

/-- `addr` is not above `0x000fffff` (R53). -/
def inRange (addr : Word) : Bool := decide (addr.toNat < memSize)

/-- The state after a store of the word `v` at `addr` (R55). -/
def State.storeWord (s : State) (addr v : Word) : State := { s with mem := s.mem.writeWord addr.toNat v }

/-- `addr` is in `TEXT` (R64). -/
def State.inText (s : State) (addr : Word) : Bool := s.config.text.contains addr.toNat

/-- `MemRead(addr, 4)` (R54). -/
def memRead (s : State) (addr : Word) : Except Fault Word :=
  if !aligned addr then .error (.misalignedAccess addr)
  else if !inRange addr then .error (.addressOutOfRange addr)
  else
    match s.mem.readWord addr.toNat with
    | none => .error (.uninitMemRead addr)
    | some v => .ok v

/-- `MemWrite(addr, 4, v)` (R55). -/
def memWrite (s : State) (addr v : Word) : Except Fault State :=
  if !aligned addr then .error (.misalignedAccess addr)
  else if !inRange addr then .error (.addressOutOfRange addr)
  else if s.inText addr then .error (.storeToText addr)
  else .ok (s.storeWord addr v)

/-- The fetch of the word at `pc`: R25 step 1, then `MemFetch(pc)` (R27, R51, R56). -/
def fetch (s : State) : Except Fault Word :=
  if !aligned s.pc then .error (.misalignedFetch s.pc)
  else if !inRange s.pc then .error (.addressOutOfRange s.pc)
  else if !s.inText s.pc then .error (.fetchOutsideText s.pc)
  else
    match s.mem.readWord s.pc.toNat with
    | none => .error (.uninitMemRead s.pc)
    | some w => .ok w

/-! ## The FIFOs (R31, R32) -/

/-- `inq[i]`, head first (R31). -/
def State.inFifo (s : State) (i : Channel) : List Word := s.inq[i]

/-- `outq[i]`, head first (R32). -/
def State.outFifo (s : State) (i : Channel) : List Word := s.outq[i]

/-- What the manager has received from `outq[i]`, oldest first (R32). -/
def State.receivedFrom (s : State) (i : Channel) : List Word := s.received[i]

/-- `inq[i] <- q`. -/
def State.setInFifo (s : State) (i : Channel) (q : List Word) : State := { s with inq := s.inq.set i q }

/-- `outq[i] <- q`. -/
def State.setOutFifo (s : State) (i : Channel) (q : List Word) : State := { s with outq := s.outq.set i q }

/-- The manager's record from `outq[i]`. -/
def State.setReceived (s : State) (i : Channel) (q : List Word) : State := { s with received := s.received.set i q }

/-- `inq[i]` has room: the manager may append (R31). -/
def State.inRoom (s : State) (i : Channel) : Bool := s.config.inDepth[i].hasRoom (s.inFifo i).length

/-- `outq[i]` is "ready": it holds fewer than `OUT_DEPTH[i]` elements (R32, D14). -/
def State.outReady (s : State) (i : Channel) : Bool := s.config.outDepth[i].hasRoom (s.outFifo i).length

/-! ## Control and status registers (R29 to R34) -/

/-- What a CSR number names (R29, R30). -/
inductive CsrPort where
  /-- `in<i>`: the head of `inq[i]` -/
  | input (i : Channel)
  /-- `out<i>`: the tail of `outq[i]` -/
  | output (i : Channel)
  /-- none of the six -/
  | unsupported
deriving DecidableEq, Repr

/-- The CSR table of R29. -/
def csrPort (n : CsrNum) : CsrPort :=
  if n = 0xFC2#12 then .input 0
  else if n = 0xFC3#12 then .input 1
  else if n = 0xFC4#12 then .input 2
  else if n = 0x7C2#12 then .output 0
  else if n = 0x7C3#12 then .output 1
  else if n = 0x7C4#12 then .output 2
  else .unsupported

/-- What a CSR access ends in: a result, a stall (R11) or a fault. -/
inductive Access (α : Type) where
  | done (a : α)
  | stall
  | fault (f : Fault)
deriving DecidableEq, Repr

/-- `CSRRead(n)`: the value and the state after the dequeue (R33). -/
def csrRead (s : State) (n : CsrNum) : Access (Word × State) :=
  match csrPort n with
  | .input i =>
    match s.inFifo i with
    | [] => .stall
    | v :: rest => .done (v, s.setInFifo i rest)
  | .output _ => .fault (.undefinedCsrAccess n .read)
  | .unsupported => .fault (.unsupportedCsr n)

/-- `CSRWrite(n, v)`: the state after the enqueue (R34). -/
def csrWrite (s : State) (n : CsrNum) (v : Word) : Access State :=
  match csrPort n with
  | .output i => if s.outReady i then .done (s.setOutFifo i (s.outFifo i ++ [v])) else .stall
  | .input _ => .fault (.undefinedCsrAccess n .write)
  | .unsupported => .fault (.unsupportedCsr n)

/-! ## The external manager (R31, R32, R173) -/

/-- The move is enabled: `inq[i]` has room, or `outq[i]` is not empty (R31, R32). -/
def managerEnabled (s : State) : ManagerMove → Bool
  | .enq i _ => s.inRoom i
  | .deq i => !(s.outFifo i).isEmpty

/-- The manager's move; one that is not enabled does not happen (R31, R32; log entry 8). -/
def managerMove (s : State) : ManagerMove → State
  | .enq i v => if s.inRoom i then s.setInFifo i (s.inFifo i ++ [v]) else s
  | .deq i =>
    match s.outFifo i with
    | [] => s
    | v :: rest => (s.setOutFifo i rest).setReceived i (s.receivedFrom i ++ [v])

/-- The next event: a manager move, or none for a processor step; and the state with that turn taken off the
schedule (R195; log entry 8). -/
def State.takeTurn (s : State) : Option ManagerMove × State :=
  match s.schedule with
  | [] => (none, s)
  | .processor :: rest => (none, { s with schedule := rest })
  | .manager m :: rest => (some m, { s with schedule := rest })

/-! ## Placing an instruction (spec/70_reset_and_hazards.md R191) -/

/-- Adds an address to a strictly rising list of addresses. -/
def insertText : List Nat → Nat → List Nat
  | [], k => [k]
  | a :: rest, k => if k < a then k :: a :: rest else if k = a then a :: rest else a :: insertText rest k

/-- The `pc`, or the reset vector when no instruction can stand at the `pc` (R25, R53). -/
def State.fetchablePc (s : State) : Word :=
  if aligned s.pc && inRange s.pc then s.pc else resetVector

/-- The schedule with a processor step as its next event. -/
def processorFirst : List Turn → List Turn
  | .manager m :: rest => .processor :: .manager m :: rest
  | turns => turns

/-- The loader's part of R191 for one word: its bytes in memory where the next fetch reads, its address in `TEXT`, and
the next event a processor step. -/
def State.placeWord (s : State) (w : Word) : State :=
  { s with
    pc := s.fetchablePc
    mem := s.mem.writeWord s.fetchablePc.toNat w
    config := { s.config with text := insertText s.config.text s.fetchablePc.toNat }
    schedule := processorFirst s.schedule }

end Sys2Proof.Machine
end

