-- ==== Sys2Proof/Machine/Operands.lean ====
section
/-! DEFINITION. The operand forms (spec/30_encoding.md R101): a register, an immediate, a CSR number, and the three
sums made of them. All sums are modulo 2^32 (spec/00_scope.md R8; log entry 15). -/

namespace Sys2Proof.Machine

/-- The one addressing mode: base register plus displacement (R142). -/
def effectiveAddress (s : State) (base : Reg) (imm : Word) : Word := s.readReg base + imm

/-- The target of JAL and of a taken BNE: `pc + imm` (R26). -/
def pcTarget (s : State) (imm : Word) : Word := s.pc + imm

/-- The return address JAL writes: `pc + 4` (R150). -/
def linkAddress (s : State) : Word := s.pc + 4#32

end Sys2Proof.Machine
end

