-- ==== Sys2Proof/Machine/Arith.lean ====
section
/-! DEFINITION. ADD, ADDI and MUL (spec/41_arith.md). -/

namespace Sys2Proof.Machine

/-- The shared form of the family: a result into `rd`, then the next instruction. -/
def completeWith (s : State) (rd : Reg) (v : Word) : Result := .next (s.writeReg rd v).advance

/-- ADD (R130). -/
def execAdd (rd rs1 rs2 : Reg) (s : State) : Result := completeWith s rd (s.readReg rs1 + s.readReg rs2)

/-- ADDI (R131). -/
def execAddi (rd rs1 : Reg) (imm : Word) (s : State) : Result := completeWith s rd (s.readReg rs1 + imm)

/-- MUL (R132): the low 32 bits of the product. -/
def execMul (rd rs1 rs2 : Reg) (s : State) : Result := completeWith s rd (s.readReg rs1 * s.readReg rs2)

end Sys2Proof.Machine
end

