-- ==== Sys2Proof/Machine/Flags.lean ====
section
/-! DEFINITION. TinyRV1 has no status flags, no condition codes and no predicate registers; no instruction writes one
as a side effect (spec/10_state.md R28). The one condition there is, BNE's, is computed by the branch itself. -/

namespace Sys2Proof.Machine

/-- BNE's condition: the values differ in some of their 32 bits (R152, R133). -/
def branchTaken (a b : Word) : Bool := a != b

end Sys2Proof.Machine
end

