-- ==== Sys2Proof/Machine/Control.lean ====
section
/-! DEFINITION. JAL, JR and BNE (spec/43_control.md). A jump or a taken branch to any target completes; the target is
checked by the next fetch (spec/10_state.md R27). There is no delay slot (R154). -/

namespace Sys2Proof.Machine

/-- JAL (R150): link and target are both computed from the old `pc`. -/
def execJal (rd : Reg) (imm : Word) (s : State) : Result :=
  .next ((s.writeReg rd (linkAddress s)).setPc (pcTarget s imm))

/-- JR (R151): the whole register value, no bit cleared (log entry 16). -/
def execJr (rs1 : Reg) (s : State) : Result := .next (s.setPc (s.readReg rs1))

/-- BNE (R152). -/
def execBne (rs1 rs2 : Reg) (imm : Word) (s : State) : Result :=
  if branchTaken (s.readReg rs1) (s.readReg rs2) then .next (s.setPc (pcTarget s imm)) else .next s.advance

end Sys2Proof.Machine
end

