-- ==== Sys2Proof/Machine/Csr.lean ====
section
/-! DEFINITION. CSRR and CSRW (spec/40_csr.md). A stall leaves every piece of state as it was, so that the next
processor step tries the same instruction again (spec/00_scope.md R11; log entry 7). -/

namespace Sys2Proof.Machine

/-- CSRR (R120). -/
def execCsrr (rd : Reg) (csr : CsrNum) (s : State) : Result :=
  match csrRead s csr with
  | .done (v, s1) => .next (s1.writeReg rd v).advance
  | .stall => .next s
  | .fault f => .fault f

/-- CSRW (R121). -/
def execCsrw (csr : CsrNum) (rs1 : Reg) (s : State) : Result :=
  match csrWrite s csr (s.readReg rs1) with
  | .done s1 => .next s1.advance
  | .stall => .next s
  | .fault f => .fault f

end Sys2Proof.Machine
end

