-- ==== Sys2Proof/Machine/LoadStore.lean ====
section
/-! DEFINITION. LW and SW (spec/42_loadstore.md). -/

namespace Sys2Proof.Machine

/-- LW (R140). -/
def execLw (rd rs1 : Reg) (imm : Word) (s : State) : Result :=
  match memRead s (effectiveAddress s rs1 imm) with
  | .ok v => .next (s.writeReg rd v).advance
  | .error f => .fault f

/-- SW (R141). -/
def execSw (rs1 rs2 : Reg) (imm : Word) (s : State) : Result :=
  match memWrite s (effectiveAddress s rs1 imm) (s.readReg rs2) with
  | .ok s1 => .next s1.advance
  | .error f => .fault f

end Sys2Proof.Machine
end

