-- ==== Sys2Proof/Machine/Cycle.lean ====
section
/-! DEFINITION. The instruction cycle: one step of the processor (spec/10_state.md R25). -/

namespace Sys2Proof.Machine

/-- R25: fetch, decode, execute. -/
def cycle (s : State) : Result :=
  match fetch s with
  | .error f => .fault f
  | .ok w =>
    match decode w with
    | .error _ => .fault (.illegalInstruction w)
    | .ok i => exec i s

/-- The next event of the whole machine: the processor's step or the manager's move (R195; log entry 8). -/
def event (s : State) : Result :=
  match s.takeTurn with
  | (none, s1) => cycle s1
  | (some m, s1) => .next (managerMove s1 m)

end Sys2Proof.Machine
end

