-- ==== Sys2Proof/Machine/Step.lean ====
section
/-! DEFINITION. One step of the machine, and how the host places one instruction for it. -/

namespace Sys2Proof.Machine

/-- One event: the processor executes the instruction at the `pc`, or the manager makes its move
(spec/10_state.md R25; spec/70_reset_and_hazards.md R195). -/
def step (s : State) : Host.Outcome State Fault Refusal := event s

/-- The state in which the next step fetches and runs the word whose `nbits` low bits are those of `w`: the loader's
work of spec/70_reset_and_hazards.md R191 for one word (log entry 28). -/
def State.withFetchWord (s : State) (nbits w : Nat) : State := s.placeWord (tableWord nbits w)

end Sys2Proof.Machine
end

