-- ==== Sys2Proof/Machine/Assembly.lean ====
section
/-! DEFINITION. The assembler's side of the instruction set: names of registers and CSRs, the operands of each
assembly line, the pseudo-instruction NOP (spec/10_state.md R22, R29; spec/30_encoding.md R97 to R100).

The manual gives no label, directive, number or comment syntax (spec/91_not_in_source.md N14), so a line is taken as its
mnemonic and its operands, not as text (log entry 26). -/

namespace Sys2Proof.Machine

/-- The names `x0` to `x31` (R97). -/
def numericNames : List (String × Reg) :=
  [("x0", 0#5), ("x1", 1#5), ("x2", 2#5), ("x3", 3#5), ("x4", 4#5), ("x5", 5#5), ("x6", 6#5), ("x7", 7#5)]
  ++ [("x8", 8#5), ("x9", 9#5), ("x10", 10#5), ("x11", 11#5), ("x12", 12#5), ("x13", 13#5), ("x14", 14#5), ("x15", 15#5)]
  ++ [("x16", 16#5), ("x17", 17#5), ("x18", 18#5), ("x19", 19#5), ("x20", 20#5), ("x21", 21#5), ("x22", 22#5), ("x23", 23#5)]
  ++ [("x24", 24#5), ("x25", 25#5), ("x26", 26#5), ("x27", 27#5), ("x28", 28#5), ("x29", 29#5), ("x30", 30#5), ("x31", 31#5)]

/-- The ABI names of R22; `x8` has two. -/
def abiNames : List (String × Reg) :=
  [("zero", 0#5), ("ra", 1#5), ("sp", 2#5), ("gp", 3#5), ("tp", 4#5), ("t0", 5#5), ("t1", 6#5), ("t2", 7#5)]
  ++ [("s0", 8#5), ("s1", 9#5), ("a0", 10#5), ("a1", 11#5), ("a2", 12#5), ("a3", 13#5), ("a4", 14#5), ("a5", 15#5)]
  ++ [("a6", 16#5), ("a7", 17#5), ("s2", 18#5), ("s3", 19#5), ("s4", 20#5), ("s5", 21#5), ("s6", 22#5), ("s7", 23#5)]
  ++ [("s8", 24#5), ("s9", 25#5), ("s10", 26#5), ("s11", 27#5), ("t3", 28#5), ("t4", 29#5), ("t5", 30#5), ("t6", 31#5)]
  ++ [("fp", 8#5)]

/-- The register an assembly operand names (R97). -/
def regNamed (name : String) : Option Reg := ((numericNames ++ abiNames).find? (·.1 == name)).map (·.2)

/-- The CSR specifiers and their numbers (R29). DESIGN CHOICE (log entry 29): a CSR specifier is one of these six names;
whether it may also be written by its number is not in the manual (R97, N14). -/
def csrNames : List (String × CsrNum) :=
  [("in0", 0xFC2#12), ("in1", 0xFC3#12), ("in2", 0xFC4#12), ("out0", 0x7C2#12), ("out1", 0x7C3#12), ("out2", 0x7C4#12)]

/-- The CSR an assembly operand names; a number names none (R97; log entry 29). -/
def csrNamed (name : String) : Option CsrNum := (csrNames.find? (·.1 == name)).map (·.2)

/-- An assembly line with its operands in the order they are written (R97). -/
inductive AsmLine where
  | csrr (rd csr : String)
  | csrw (csr rs1 : String)
  | add (rd rs1 rs2 : String)
  | addi (rd rs1 : String) (imm : Int)
  | mul (rd rs1 rs2 : String)
  | lw (rd : String) (imm : Int) (rs1 : String)
  | sw (rs2 : String) (imm : Int) (rs1 : String)
  | jal (rd : String) (addr : Word)
  | jr (rs1 : String)
  | bne (rs1 rs2 : String) (addr : Word)
  | nop
deriving DecidableEq, Repr

/-- A written I- or S-immediate, if its type can carry it (R91). -/
def asmImm12 (imm : Int) : Option Word :=
  if -2048 ≤ imm ∧ imm ≤ 2047 then some (BitVec.ofInt 32 imm) else none

/-- The immediate the assembler encodes for a target address: `addr - pc` (R98). -/
def asmOffset (fits : Word → Bool) (pc addr : Word) : Option Word :=
  if fits (addr - pc) then some (addr - pc) else none

/-- The instruction a line stands for at the address `pc`; none for a name or an operand that cannot be encoded, about
which the manual says nothing (R97 to R99; spec/93_implementation_defined.md S15; log entry 26). -/
def assemble (pc : Word) : AsmLine → Option Instr
  | .csrr rd csr => do return .csrr (← regNamed rd) (← csrNamed csr)
  | .csrw csr rs1 => do return .csrw (← csrNamed csr) (← regNamed rs1)
  | .add rd rs1 rs2 => do return .add (← regNamed rd) (← regNamed rs1) (← regNamed rs2)
  | .addi rd rs1 imm => do return .addi (← regNamed rd) (← regNamed rs1) (← asmImm12 imm)
  | .mul rd rs1 rs2 => do return .mul (← regNamed rd) (← regNamed rs1) (← regNamed rs2)
  | .lw rd imm rs1 => do return .lw (← regNamed rd) (← regNamed rs1) (← asmImm12 imm)
  | .sw rs2 imm rs1 => do return .sw (← regNamed rs1) (← regNamed rs2) (← asmImm12 imm)
  | .jal rd addr => do return .jal (← regNamed rd) (← asmOffset fitsImmJ pc addr)
  | .jr rs1 => do return .jr (← regNamed rs1)
  | .bne rs1 rs2 addr => do return .bne (← regNamed rs1) (← regNamed rs2) (← asmOffset fitsImmB pc addr)
  | .nop => some Instr.nop

end Sys2Proof.Machine
end

