-- ==== Sys2Proof/Safety.lean ====
section
/-! DEFINITION. The terms claims use: what an instruction reads and writes, what stays the same, the invariant, the end
of a run, and the registers' bookkeeping of spec/10_state.md R23 and R36. -/

namespace Sys2Proof

/-- The registers an instruction reads, in the order they are checked (R23, R163). -/
def Instr.sources : Instr → List Reg
  | .csrr _ _ => []
  | .csrw _ rs1 => [rs1]
  | .add _ rs1 rs2 => [rs1, rs2]
  | .addi _ rs1 _ => [rs1]
  | .mul _ rs1 rs2 => [rs1, rs2]
  | .lw _ rs1 _ => [rs1]
  | .sw rs1 rs2 _ => [rs1, rs2]
  | .jal _ _ => []
  | .jr rs1 => [rs1]
  | .bne rs1 rs2 _ => [rs1, rs2]

/-- The register an instruction writes (R23). -/
def Instr.dest : Instr → Option Reg
  | .csrr rd _ => some rd
  | .csrw _ _ => none
  | .add rd _ _ => some rd
  | .addi rd _ _ => some rd
  | .mul rd _ _ => some rd
  | .lw rd _ _ => some rd
  | .sw _ _ _ => none
  | .jal rd _ => some rd
  | .jr _ => none
  | .bne _ _ _ => none

namespace Machine

/-- The address of the word an instruction stores to (R141, R142). -/
def storeAddress (i : Instr) (s : State) : Option Word :=
  match i with
  | .sw rs1 _ imm => some (effectiveAddress s rs1 imm)
  | _ => none

/-! ## Reads of registers that nothing has written (R23, D12; log entry 2) -/

/-- The register for which R23 gives `UninitRegRead`: the first source that has not been written since reset. The
model runs on with the value the register holds; a claim that must not rest on that value assumes `none` here. -/
def unwrittenSource (i : Instr) (s : State) : Option Reg := i.sources.find? (fun r => !s.regWritten r)

/-- The instruction the processor would execute, if its fetch and its decoding succeed (R25). -/
def nextInstr (s : State) : Option Instr :=
  match fetch s with
  | .error _ => none
  | .ok w => (decode w).toOption

/-- Two states that differ at most in the values of registers nothing has written. -/
structure AgreeOnWritten (s t : State) : Prop where
  pc : s.pc = t.pc
  mem : s.mem = t.mem
  inq : s.inq = t.inq
  outq : s.outq = t.outq
  mode : s.mode = t.mode
  written : s.written = t.written
  config : s.config = t.config
  received : s.received = t.received
  schedule : s.schedule = t.schedule
  regs : ∀ r : Reg, s.regWritten r = true → s.readReg r = t.readReg r

/-- Two outcomes that differ at most in the values of registers nothing has written. -/
def OutcomesAgree : Result → Result → Prop
  | .next s, .next t => AgreeOnWritten s t
  | .fault f, .fault g => f = g
  | .refused q, .refused r => q = r
  | _, _ => False

/-! ## Turns and CSR numbers -/

/-- The next event of `s` is a processor step, made in the state `s1` (R195; log entry 8). -/
def ProcessorTurn (s s1 : State) : Prop :=
  (s.schedule = [] ∧ s1 = s) ∨ ∃ rest, s.schedule = .processor :: rest ∧ s1 = { s with schedule := rest }

/-- The numbers of `in0`, `in1`, `in2` (R29). -/
def inCsrs : List (CsrNum × Channel) := [(0xFC2#12, 0), (0xFC3#12, 1), (0xFC4#12, 2)]

/-- The numbers of `out0`, `out1`, `out2` (R29). -/
def outCsrs : List (CsrNum × Channel) := [(0x7C2#12, 0), (0x7C3#12, 1), (0x7C4#12, 2)]

/-! ## What stays the same -/

/-- Every byte of memory reads as before. -/
def SameMemory (s t : State) : Prop := ∀ a : Nat, t.mem.read a = s.mem.read a

/-- The six FIFOs are as before. -/
def SameFifos (s t : State) : Prop := t.inq = s.inq ∧ t.outq = s.outq

/-- Mode, parameters, the manager's record and its coming moves are as before. -/
def SameEnvironment (s t : State) : Prop :=
  t.mode = s.mode ∧ t.config = s.config ∧ t.received = s.received ∧ t.schedule = s.schedule

/-- Every register holds what it held, and the bookkeeping of R36 is as before. -/
def SameRegs (s t : State) : Prop :=
  (∀ r : Reg, t.readReg r = s.readReg r) ∧ (∀ r : Reg, t.regWritten r = s.regWritten r)

/-- `x[rd] <- v` and no other register: `x0` still reads as zero (R21). -/
def WritesReg (rd : Reg) (v : Word) (s t : State) : Prop :=
  (∀ r : Reg, t.readReg r = if r = rd ∧ r ≠ 0#5 then v else s.readReg r) ∧
  (∀ r : Reg, t.regWritten r = (s.regWritten r || r == rd))

/-- The four bytes at `a` are those of `v`, little endian, and every other byte reads as before (R50, R55). -/
def StoresWord (a : Nat) (v : Word) (s t : State) : Prop :=
  t.mem.read a = some (v.extractLsb' 0 8) ∧ t.mem.read (a + 1) = some (v.extractLsb' 8 8) ∧
  t.mem.read (a + 2) = some (v.extractLsb' 16 8) ∧ t.mem.read (a + 3) = some (v.extractLsb' 24 8) ∧
  ∀ b : Nat, (b < a ∨ a + 4 ≤ b) → t.mem.read b = s.mem.read b

/-! ## The invariant -/

/-- What R64 asks of `TEXT`: aligned addresses inside the 1 MB whose bytes all hold a value. -/
def TextWf (text : List Nat) (m : Memory) : Prop :=
  text.Pairwise (· < ·) ∧ ∀ a ∈ text, a % 4 = 0 ∧ a + 3 < memSize ∧ (m.readWord a).isSome = true

/-- What R4 asks of the depths. -/
def DepthsPositive (c : Config) : Prop :=
  ∀ i : Channel, c.inDepth[i].positive = true ∧ c.outDepth[i].positive = true

/-- The states a machine with legal parameters can be in: memory in canonical form, a program as R64 asks, positive
depths, and no FIFO fuller than its depth (R4, R31, R32, R64). -/
structure Inv (s : State) : Prop where
  mem : s.mem.wf
  text : TextWf s.config.text s.mem
  depths : DepthsPositive s.config
  inq : ∀ i : Channel, s.config.inDepth[i].holds (s.inFifo i).length = true
  outq : ∀ i : Channel, s.config.outDepth[i].holds (s.outFifo i).length = true

/-! ## Runs -/

/-- `n` events, stopping at the first fault. -/
def run : Nat → State → Result
  | 0, s => .next s
  | n + 1, s =>
    match step s with
    | .next t => run n t
    | .fault f => .fault f
    | .refused q => .refused q

/-- `END_OF_RUN`: a predicate on the `pc` and on what the manager has received, which the launch supplies (R197, D18;
log entry 25). -/
abbrev EndOfRun := Word → Vector (List Word) 3 → Bool

/-- The run has ended in this state. A fault is never an end of run: it is no state (R197). -/
def ended (e : EndOfRun) (s : State) : Bool := e s.pc s.received

/-- R197's first example: the `pc` equals a given address. -/
def endsAtPc (haltPc : Word) : EndOfRun := fun pc _ => pc == haltPc

/-- R197's second example: the manager has received the expected number of results. -/
def endsWithResults (i : Channel) (n : Nat) : EndOfRun := fun _ received => decide (n ≤ received[i].length)

/-- A run from `s` that ends, without a fault, within `n` events. -/
def EndsWithin (e : EndOfRun) (n : Nat) (s : State) : Prop :=
  ∃ k t, k ≤ n ∧ run k s = .next t ∧ ended e t = true

/-- The state with other output FIFO depths. -/
def withOutDepth (s : State) (d : Vector Depth 3) : State := { s with config := { s.config with outDepth := d } }

/-- Everything that ever entered `outq[i]`: what the manager has received, then what the FIFO still holds (R32). -/
def outStream (s : State) (i : Channel) : List Word := s.receivedFrom i ++ s.outFifo i

/-- The value the next event writes to `out<i>`: that of the register of a CSRW of its number, when the FIFO is ready so
that the CSRW completes; otherwise none (R121, R32). -/
def csrwValue (i : Channel) (s : State) : List Word :=
  match s.takeTurn with
  | (some _, _) => []
  | (none, s1) =>
    match nextInstr s1 with
    | some (.csrw n rs1) => if (n, i) ∈ outCsrs ∧ s1.outReady i = true then [s1.readReg rs1] else []
    | _ => []

/-- The values the CSRWs of `out<i>` that complete in a run of `n` events write, in program order (R32). -/
def csrwValues (i : Channel) : Nat → State → List Word
  | 0, _ => []
  | n + 1, s =>
    match step s with
    | .next t => csrwValue i s ++ csrwValues i n t
    | .fault _ => []
    | .refused _ => []

end Machine

end Sys2Proof
end

