-- ==== Sys2Proof/Certificates/Slice0/Obligations.lean ====
section
/-! DEFINITION. What the provers are asked to prove of this model: one `def Obligations.<Name> : Prop` each, listed in
OBLIGATIONS.json.

Rules R<n> are those of spec/. A clause that rests on a decision of spec/92_eei_decisions.md, on a derivation the spec marks as its
own or on a choice of the model's says so and names it. `+` and `*` on words are modulo 2^32 (R8, D10); where that
is the point of a statement, it says it over the naturals.

Two choices of the model's stand behind many statements and are named again where they decide something. A source register
that nothing has written is read, where R23 raises `UninitRegRead` (log entry 2, D12's alternative); so what a statement
says of an instruction with such a source is the model's. Whose event comes next is read off `schedule`, and a stall is
an event that answers the same state (log entries 8 and 7; R11 says that a stall is no step). -/

open Sys2Proof Sys2Proof.Machine

/-! ## Encoding -/

/-- Words of spec/95_test_vectors.md table 2.1 decode to the instruction the table gives, one or more for every family, and
three words of table 2.2 are refused by name. -/
def Obligations.DecodesTheSpecsWords : Prop :=
  decode 0xfc2022f3#32 = .ok (.csrr 5#5 0xfc2#12) ∧
  decode 0x7c4f9073#32 = .ok (.csrw 0x7c4#12 31#5) ∧
  decode 0x002081b3#32 = .ok (.add 3#5 1#5 2#5) ∧
  decode 0x80008113#32 = .ok (.addi 2#5 1#5 0xfffff800#32) ∧
  decode 0x022081b3#32 = .ok (.mul 3#5 1#5 2#5) ∧
  decode 0xffc12283#32 = .ok (.lw 5#5 2#5 0xfffffffc#32) ∧
  decode 0x7e71afa3#32 = .ok (.sw 3#5 7#5 0x000007ff#32) ∧
  decode 0x001000ef#32 = .ok (.jal 1#5 0x00000800#32) ∧
  decode 0x000f8067#32 = .ok (.jr 31#5) ∧
  decode 0xfe009ce3#32 = .ok (.bne 1#5 0#5 0xfffffff8#32) ∧
  decode 0x402081b3#32 = .error (.illegalInstruction 0x402081b3#32) ∧
  decode 0xfc20a2f3#32 = .error (.illegalInstruction 0xfc20a2f3#32) ∧
  decode 0x000080e7#32 = .error (.illegalInstruction 0x000080e7#32)

/-- Decoding the word of a well-formed instruction gives the instruction back, with every operand at every value its
field or its immediate type can carry (R82 to R92). -/
def Obligations.DecodeOfEncode : Prop :=
  ∀ i : Instr, i.wellFormed = true → decode (encode i) = .ok i

/-- Every word that decodes is the word of the instruction it decodes to, and that instruction is well-formed: no bit
of a word is dropped, and each immediate is in its range (R91, R92). -/
def Obligations.EncodeOfDecode : Prop :=
  ∀ (w : Word) (i : Instr), decode w = .ok i → i.wellFormed = true ∧ encode i = w

/-- R92 in fields, not in masks: a word decodes exactly when its `opcode`, `funct3`, `funct7` and other fixed fields are
those of one of the ten rows, and then to that row's instruction. -/
def Obligations.DecodesByTheFixedFieldsOfItsRow : Prop :=
  ∀ (w : Word) (m : Mnemonic),
    (decode w = .ok (readOperands m w) ↔
      match m with
      | .csrr => fieldOpcode w = 0b1110011#7 ∧ fieldFunct3 w = 0b010#3 ∧ fieldRs1 w = 0b00000#5
      | .csrw => fieldOpcode w = 0b1110011#7 ∧ fieldFunct3 w = 0b001#3 ∧ fieldRd w = 0b00000#5
      | .add => fieldOpcode w = 0b0110011#7 ∧ fieldFunct3 w = 0b000#3 ∧ fieldFunct7 w = 0b0000000#7
      | .addi => fieldOpcode w = 0b0010011#7 ∧ fieldFunct3 w = 0b000#3
      | .mul => fieldOpcode w = 0b0110011#7 ∧ fieldFunct3 w = 0b000#3 ∧ fieldFunct7 w = 0b0000001#7
      | .lw => fieldOpcode w = 0b0000011#7 ∧ fieldFunct3 w = 0b010#3
      | .sw => fieldOpcode w = 0b0100011#7 ∧ fieldFunct3 w = 0b010#3
      | .jal => fieldOpcode w = 0b1101111#7
      | .jr => fieldOpcode w = 0b1100111#7 ∧ fieldFunct3 w = 0b000#3 ∧ fieldRd w = 0b00000#5 ∧
          fieldCsr w = 0b000000000000#12
      | .bne => fieldOpcode w = 0b1100011#7 ∧ fieldFunct3 w = 0b001#3)

/-- No 32-bit word matches two rows of the opcode map; the spec marks R94 as derived from R92. -/
def Obligations.OpcodeRowsAreDisjoint : Prop :=
  ∀ (w : Word) (r₁ r₂ : OpRow), r₁ ∈ opcodeMap → r₂ ∈ opcodeMap → r₁.matches w = true → r₂.matches w = true → r₁ = r₂

/-- The four immediates bit by bit, as the figures of R86, R87, R88 and R89 give them. -/
def Obligations.ImmediatesBitByBit : Prop :=
  ∀ w : Word,
    -- R86
    ((immI w).getLsbD 0 = w.getLsbD 20 ∧ (∀ k, k < 4 → (immI w).getLsbD (1 + k) = w.getLsbD (21 + k)) ∧
      (∀ k, k < 6 → (immI w).getLsbD (5 + k) = w.getLsbD (25 + k)) ∧
      (∀ k, k < 21 → (immI w).getLsbD (11 + k) = w.getLsbD 31)) ∧
    -- R87
    ((immS w).getLsbD 0 = w.getLsbD 7 ∧ (∀ k, k < 4 → (immS w).getLsbD (1 + k) = w.getLsbD (8 + k)) ∧
      (∀ k, k < 6 → (immS w).getLsbD (5 + k) = w.getLsbD (25 + k)) ∧
      (∀ k, k < 21 → (immS w).getLsbD (11 + k) = w.getLsbD 31)) ∧
    -- R88
    ((immJ w).getLsbD 0 = false ∧ (∀ k, k < 4 → (immJ w).getLsbD (1 + k) = w.getLsbD (21 + k)) ∧
      (∀ k, k < 6 → (immJ w).getLsbD (5 + k) = w.getLsbD (25 + k)) ∧ (immJ w).getLsbD 11 = w.getLsbD 20 ∧
      (∀ k, k < 8 → (immJ w).getLsbD (12 + k) = w.getLsbD (12 + k)) ∧
      (∀ k, k < 12 → (immJ w).getLsbD (20 + k) = w.getLsbD 31)) ∧
    -- R89
    ((immB w).getLsbD 0 = false ∧ (∀ k, k < 4 → (immB w).getLsbD (1 + k) = w.getLsbD (8 + k)) ∧
      (∀ k, k < 6 → (immB w).getLsbD (5 + k) = w.getLsbD (25 + k)) ∧ (immB w).getLsbD 11 = w.getLsbD 7 ∧
      (∀ k, k < 20 → (immB w).getLsbD (12 + k) = w.getLsbD 31))

/-- R98: for a target whose distance the immediate type can carry, the assembler encodes `imm` with `pc + imm = addr`, and the
word it scatters `imm` into decodes to it again. -/
def Obligations.AssemblerEncodesTheDistance : Prop :=
  (∀ (pc addr : Word) (rd : String) (r : Reg), regNamed rd = some r →
    (addr - pc).toInt % 2 = 0 → -1048576 ≤ (addr - pc).toInt → (addr - pc).toInt ≤ 1048574 →
    ∃ imm : Word, assemble pc (.jal rd addr) = some (.jal r imm) ∧ pc + imm = addr ∧
      decode (encode (.jal r imm)) = .ok (.jal r imm)) ∧
  (∀ (pc addr : Word) (rs1 rs2 : String) (r₁ r₂ : Reg), regNamed rs1 = some r₁ → regNamed rs2 = some r₂ →
    (addr - pc).toInt % 2 = 0 → -4096 ≤ (addr - pc).toInt → (addr - pc).toInt ≤ 4094 →
    ∃ imm : Word, assemble pc (.bne rs1 rs2 addr) = some (.bne r₁ r₂ imm) ∧ pc + imm = addr ∧
      decode (encode (.bne r₁ r₂ imm)) = .ok (.bne r₁ r₂ imm))

/-! ## The instruction cycle -/

/-- R25, the case that succeeds: when the next event is the processor's, the `pc` is a multiple of 4 inside the 1 MB
and in `TEXT`, and the word there decodes, the step is the instruction's meaning. All the step adds is the turn taken
off the schedule, which is the model's own (log entry 8). -/
def Obligations.StepRunsTheDecodedInstruction : Prop :=
  ∀ (s s1 : State) (w : Word) (i : Instr), ProcessorTurn s s1 →
    s.pc.toNat % 4 = 0 → s.pc.toNat ≤ 0x000fffff → s.pc.toNat ∈ s.config.text →
    s.mem.readWord s.pc.toNat = some w → decode w = .ok i → step s = exec i s1

/-- R25 steps 1 to 3, the cases that fault, with the fault of each and in the order of R163 (decisions D3, D4, D5, D13,
D17). -/
def Obligations.FetchAndDecodeFaults : Prop :=
  ∀ s s1 : State, ProcessorTurn s s1 →
    (s.pc.toNat % 4 ≠ 0 → step s = .fault (.misalignedFetch s.pc)) ∧
    (s.pc.toNat % 4 = 0 → 0x000fffff < s.pc.toNat → step s = .fault (.addressOutOfRange s.pc)) ∧
    (s.pc.toNat % 4 = 0 → s.pc.toNat ≤ 0x000fffff → s.pc.toNat ∉ s.config.text →
      step s = .fault (.fetchOutsideText s.pc)) ∧
    (s.pc.toNat % 4 = 0 → s.pc.toNat ≤ 0x000fffff → s.pc.toNat ∈ s.config.text →
      s.mem.readWord s.pc.toNat = none → step s = .fault (.uninitMemRead s.pc)) ∧
    (∀ w, s.pc.toNat % 4 = 0 → s.pc.toNat ≤ 0x000fffff → s.pc.toNat ∈ s.config.text →
      s.mem.readWord s.pc.toNat = some w → (∀ r ∈ opcodeMap, r.matches w = false) →
      step s = .fault (.illegalInstruction w))

/-- A program with every byte of `TEXT` in memory never faults at a fetch for want of a value (spec/95_test_vectors.md 2.8,
after its table). -/
def Obligations.FetchFindsAValueInText : Prop :=
  ∀ (s : State) (a : Word), Inv s → fetch s ≠ .error (.uninitMemRead a)

/-- The word the host places is what the next step runs, for a word that decodes (log entry 28, a choice of the
model's). -/
def Obligations.PlacedWordIsRun : Prop :=
  ∀ (s : State) (w : Word) (i : Instr), decode w = .ok i →
    ∃ s1, ProcessorTurn (s.withFetchWord 32 w.toNat) s1 ∧ step (s.withFetchWord 32 w.toNat) = exec i s1

/-! ## CSRR and CSRW -/

/-- The six CSR names, their numbers and the FIFO each number is a window on; no other number names a CSR (R29, R30). -/
def Obligations.CsrNumbers : Prop :=
  (csrNamed "in0" = some 0xFC2#12 ∧ csrNamed "in1" = some 0xFC3#12 ∧ csrNamed "in2" = some 0xFC4#12 ∧
    csrNamed "out0" = some 0x7C2#12 ∧ csrNamed "out1" = some 0x7C3#12 ∧ csrNamed "out2" = some 0x7C4#12) ∧
  ∀ n : CsrNum, match csrPort n with
    | .input i => (n, i) ∈ inCsrs
    | .output i => (n, i) ∈ outCsrs
    | .unsupported => (∀ i, (n, i) ∉ inCsrs) ∧ (∀ i, (n, i) ∉ outCsrs)

/-- CSRR of an input FIFO that holds a value completes: the head goes to `rd`, is removed even when `rd` is `x0`, and
nothing else changes but the `pc`. That `pc + 4` follows and that `csrr x0` dequeues are decisions D9 and D21. -/
def Obligations.CsrrDequeues : Prop :=
  ∀ (rd : Reg) (n : CsrNum) (i : Channel) (s : State) (v : Word) (rest : List Word), (n, i) ∈ inCsrs →
    s.inFifo i = v :: rest →
    ∃ t, exec (.csrr rd n) s = .next t ∧ WritesReg rd v s t ∧ t.pc = s.pc + 4#32 ∧ t.inFifo i = rest ∧
      (∀ j, j ≠ i → t.inFifo j = s.inFifo j) ∧ t.outq = s.outq ∧ SameMemory s t ∧ SameEnvironment s t

/-- CSRR otherwise: on an empty input FIFO it stalls, with nothing changed, the `pc` included (R11, D15, log entry 7); of an
output CSR and of any other number it faults, whatever the FIFOs hold (D7, D8). -/
def Obligations.CsrrStallsOrFaults : Prop :=
  ∀ (rd : Reg) (n : CsrNum) (s : State),
    (∀ i, (n, i) ∈ inCsrs → s.inFifo i = [] → exec (.csrr rd n) s = .next s) ∧
    (∀ i, (n, i) ∈ outCsrs → exec (.csrr rd n) s = .fault (.undefinedCsrAccess n .read)) ∧
    ((∀ i, (n, i) ∉ inCsrs) → (∀ i, (n, i) ∉ outCsrs) → exec (.csrr rd n) s = .fault (.unsupportedCsr n))

/-- CSRW of an output FIFO that is ready completes: the value of `rs1`, 0 for `x0`, joins the tail, and nothing else changes
but the `pc` (the meaning of "ready" is decision D14, `pc + 4` is D9). That it completes for an `rs1` that nothing has written, where
R121 raises `UninitRegRead`, is log entry 2. -/
def Obligations.CsrwEnqueues : Prop :=
  ∀ (rs1 : Reg) (n : CsrNum) (i : Channel) (s : State), (n, i) ∈ outCsrs →
    (∀ k, s.config.outDepth[i] = .slots k → (s.outFifo i).length < k) →
    ∃ t, exec (.csrw n rs1) s = .next t ∧ SameRegs s t ∧ t.pc = s.pc + 4#32 ∧
      t.outFifo i = s.outFifo i ++ [s.readReg rs1] ∧ (∀ j, j ≠ i → t.outFifo j = s.outFifo j) ∧ t.inq = s.inq ∧
      SameMemory s t ∧ SameEnvironment s t

/-- CSRW otherwise: on a full output FIFO it stalls, with nothing changed (R11, D14, D15, log entry 7); of an input CSR and
of any other number it faults, whatever the FIFOs hold (D7, D8). For an `rs1` that nothing has written, where R121 and R163
raise `UninitRegRead` before all these, the outcomes are log entry 2's. -/
def Obligations.CsrwStallsOrFaults : Prop :=
  ∀ (rs1 : Reg) (n : CsrNum) (s : State),
    (∀ i k, (n, i) ∈ outCsrs → s.config.outDepth[i] = .slots k → k ≤ (s.outFifo i).length →
      exec (.csrw n rs1) s = .next s) ∧
    (∀ i, (n, i) ∈ inCsrs → exec (.csrw n rs1) s = .fault (.undefinedCsrAccess n .write)) ∧
    ((∀ i, (n, i) ∉ inCsrs) → (∀ i, (n, i) ∉ outCsrs) → exec (.csrw n rs1) s = .fault (.unsupportedCsr n))

/-! ## ADD, ADDI, MUL -/

/-- ADD always completes: the sum modulo 2^32 goes to `rd`, with no other effect but `pc + 4` (D10). That it completes for
sources that nothing has written, where R130 raises `UninitRegRead`, is log entry 2. -/
def Obligations.AddResult : Prop :=
  ∀ (rd rs1 rs2 : Reg) (s : State), ∃ (t : State) (v : Word), exec (.add rd rs1 rs2) s = .next t ∧
    v.toNat = ((s.readReg rs1).toNat + (s.readReg rs2).toNat) % 2 ^ 32 ∧
    WritesReg rd v s t ∧ t.pc = s.pc + 4#32 ∧ SameMemory s t ∧ SameFifos s t ∧ SameEnvironment s t

/-- ADDI always completes: the sum modulo 2^32 goes to `rd`, with no other effect but `pc + 4` (D10). That it completes for
a source that nothing has written, where R131 raises `UninitRegRead`, is log entry 2. -/
def Obligations.AddiResult : Prop :=
  ∀ (rd rs1 : Reg) (imm : Word) (s : State), ∃ (t : State) (v : Word), exec (.addi rd rs1 imm) s = .next t ∧
    v.toNat = ((s.readReg rs1).toNat + imm.toNat) % 2 ^ 32 ∧
    WritesReg rd v s t ∧ t.pc = s.pc + 4#32 ∧ SameMemory s t ∧ SameFifos s t ∧ SameEnvironment s t

/-- MUL always completes: the low 32 bits of the product go to `rd`, and they are the same whether the operands are read
as unsigned or as signed integers, with no other effect but `pc + 4` (D10; the second part is R133's derivation). That it completes for
sources that nothing has written, where R132 raises `UninitRegRead`, is log entry 2. -/
def Obligations.MulResult : Prop :=
  ∀ (rd rs1 rs2 : Reg) (s : State), ∃ (t : State) (v : Word), exec (.mul rd rs1 rs2) s = .next t ∧
    v.toNat = ((s.readReg rs1).toNat * (s.readReg rs2).toNat) % 2 ^ 32 ∧
    v = BitVec.ofInt 32 ((s.readReg rs1).toInt * (s.readReg rs2).toInt) ∧
    WritesReg rd v s t ∧ t.pc = s.pc + 4#32 ∧ SameMemory s t ∧ SameFifos s t ∧ SameEnvironment s t

/-- NOP is `addi x0, x0, 0`, its word is `0x00000013`, and it changes nothing but the `pc` (R99). -/
def Obligations.NopChangesOnlyThePc : Prop :=
  decode 0x00000013#32 = .ok (.addi 0#5 0#5 0#32) ∧ assemble 0#32 .nop = some (.addi 0#5 0#5 0#32) ∧
  ∀ s : State, exec (.addi 0#5 0#5 0#32) s = .next { s with pc := s.pc + 4#32 }

/-! ## LW, SW -/

/-- LW completes at an address that is a multiple of 4, inside the 1 MB, whose four bytes hold a value: the bytes, the
one at the lowest address least significant, go to `rd`, with no other effect but `pc + 4` (alignment is D2, the range D4,
"holds a value" D13; the byte placement is general knowledge, log entry 18). That it completes for a base that nothing has
written, where R140 raises `UninitRegRead`, is log entry 2. -/
def Obligations.LwResult : Prop :=
  ∀ (rd rs1 : Reg) (imm : Word) (s : State) (b0 b1 b2 b3 : Byte),
    (effectiveAddress s rs1 imm).toNat % 4 = 0 → (effectiveAddress s rs1 imm).toNat ≤ 0x000fffff →
    s.mem.read (effectiveAddress s rs1 imm).toNat = some b0 →
    s.mem.read ((effectiveAddress s rs1 imm).toNat + 1) = some b1 →
    s.mem.read ((effectiveAddress s rs1 imm).toNat + 2) = some b2 →
    s.mem.read ((effectiveAddress s rs1 imm).toNat + 3) = some b3 →
    ∃ (t : State) (v : Word), exec (.lw rd rs1 imm) s = .next t ∧
      v.toNat = b0.toNat + b1.toNat * 2 ^ 8 + b2.toNat * 2 ^ 16 + b3.toNat * 2 ^ 24 ∧
      WritesReg rd v s t ∧ t.pc = s.pc + 4#32 ∧ SameMemory s t ∧ SameFifos s t ∧ SameEnvironment s t

/-- LW's faults about its address, in the order of R140: misaligned before out of range before a byte that holds no value
(decisions D2, D4, D13, D25). R140's first fault, `UninitRegRead` of a base that nothing has written, is not raised, so for
such a base these faults are log entry 2's. -/
def Obligations.LwFaults : Prop :=
  ∀ (rd rs1 : Reg) (imm : Word) (s : State),
    ((effectiveAddress s rs1 imm).toNat % 4 ≠ 0 →
      exec (.lw rd rs1 imm) s = .fault (.misalignedAccess (effectiveAddress s rs1 imm))) ∧
    ((effectiveAddress s rs1 imm).toNat % 4 = 0 → 0x000fffff < (effectiveAddress s rs1 imm).toNat →
      exec (.lw rd rs1 imm) s = .fault (.addressOutOfRange (effectiveAddress s rs1 imm))) ∧
    (∀ k, k < 4 → (effectiveAddress s rs1 imm).toNat % 4 = 0 → (effectiveAddress s rs1 imm).toNat ≤ 0x000fffff →
      s.mem.read ((effectiveAddress s rs1 imm).toNat + k) = none →
      exec (.lw rd rs1 imm) s = .fault (.uninitMemRead (effectiveAddress s rs1 imm)))

/-- SW completes at an address that is a multiple of 4, inside the 1 MB and not in `TEXT`: the four bytes there become
those of `x[rs2]`, the least significant at the lowest address, and nothing else changes but the `pc` (D2, D4, D17; log
entry 18). That it completes for a base or a value that nothing has written, where R141 raises `UninitRegRead`, is log
entry 2. -/
def Obligations.SwResult : Prop :=
  ∀ (rs1 rs2 : Reg) (imm : Word) (s : State),
    (effectiveAddress s rs1 imm).toNat % 4 = 0 → (effectiveAddress s rs1 imm).toNat ≤ 0x000fffff →
    (effectiveAddress s rs1 imm).toNat ∉ s.config.text →
    ∃ t, exec (.sw rs1 rs2 imm) s = .next t ∧ StoresWord (effectiveAddress s rs1 imm).toNat (s.readReg rs2) s t ∧
      t.pc = s.pc + 4#32 ∧ SameRegs s t ∧ SameFifos s t ∧ SameEnvironment s t

/-- SW's faults about its address, in the order of R141: misaligned before out of range before a store into `TEXT`
(decisions D2, D4, D17, D25). R141's first faults, `UninitRegRead` of a base and of a value that nothing has written, are
not raised, so for such sources these faults are log entry 2's. -/
def Obligations.SwFaults : Prop :=
  ∀ (rs1 rs2 : Reg) (imm : Word) (s : State),
    ((effectiveAddress s rs1 imm).toNat % 4 ≠ 0 →
      exec (.sw rs1 rs2 imm) s = .fault (.misalignedAccess (effectiveAddress s rs1 imm))) ∧
    ((effectiveAddress s rs1 imm).toNat % 4 = 0 → 0x000fffff < (effectiveAddress s rs1 imm).toNat →
      exec (.sw rs1 rs2 imm) s = .fault (.addressOutOfRange (effectiveAddress s rs1 imm))) ∧
    ((effectiveAddress s rs1 imm).toNat % 4 = 0 → (effectiveAddress s rs1 imm).toNat ≤ 0x000fffff →
      (effectiveAddress s rs1 imm).toNat ∈ s.config.text →
      exec (.sw rs1 rs2 imm) s = .fault (.storeToText (effectiveAddress s rs1 imm)))

/-- The effective address: base register plus displacement, the sum wrapping modulo 2^32 before any check, and the
displacement itself when the base is `x0` (R142; the wrap is D10). -/
def Obligations.EffectiveAddressWraps : Prop :=
  ∀ (s : State) (rs1 : Reg) (imm : Word),
    (effectiveAddress s rs1 imm).toNat = ((s.readReg rs1).toNat + imm.toNat) % 2 ^ 32 ∧
    effectiveAddress s 0#5 imm = imm ∧
    (fitsImm12 imm = true → imm.toInt < 0 → inRange (effectiveAddress s 0#5 imm) = false)

/-- A load after a store of the same address gives the value stored, whatever the registers between are (R61, R141). That the
load completes also for a base that nothing has written, where R140 raises `UninitRegRead`, is log entry 2. -/
def Obligations.LoadAfterStore : Prop :=
  ∀ (rs1 rs2 rd base : Reg) (imm imm' : Word) (s t : State), exec (.sw rs1 rs2 imm) s = .next t →
    effectiveAddress t base imm' = effectiveAddress s rs1 imm →
    ∃ u, exec (.lw rd base imm') t = .next u ∧ WritesReg rd (s.readReg rs2) t u ∧ SameMemory t u

/-! ## JAL, JR, BNE -/

/-- JAL always completes, whatever the target: `pc + 4` goes to `rd` and the `pc` becomes `pc + imm`, both from the old
`pc`, with no other effect (R150; the sums wrap by D10). -/
def Obligations.JalResult : Prop :=
  ∀ (rd : Reg) (imm : Word) (s : State), ∃ (t : State) (link : Word), exec (.jal rd imm) s = .next t ∧
    link.toNat = (s.pc.toNat + 4) % 2 ^ 32 ∧ t.pc.toNat = (s.pc.toNat + imm.toNat) % 2 ^ 32 ∧
    WritesReg rd link s t ∧ SameMemory s t ∧ SameFifos s t ∧ SameEnvironment s t

/-- JR always completes, whatever the target: the `pc` becomes the whole register value, no bit cleared, with no other
effect (R151, D20). That it completes for an `rs1` that nothing has written, where R151 raises `UninitRegRead`, is log entry
2. -/
def Obligations.JrResult : Prop :=
  ∀ (rs1 : Reg) (s : State), ∃ t, exec (.jr rs1) s = .next t ∧
    (∀ k, k < 32 → t.pc.getLsbD k = (s.readReg rs1).getLsbD k) ∧
    SameRegs s t ∧ SameMemory s t ∧ SameFifos s t ∧ SameEnvironment s t

/-- BNE always completes: the `pc` becomes `pc + imm` when the registers differ in some bit and `pc + 4` otherwise, with no
other effect (R152; the sums wrap by D10). That it completes for sources that nothing has written, where R152 raises
`UninitRegRead`, is log entry 2. -/
def Obligations.BneResult : Prop :=
  ∀ (rs1 rs2 : Reg) (imm : Word) (s : State), ∃ t, exec (.bne rs1 rs2 imm) s = .next t ∧
    ((∃ k, k < 32 ∧ (s.readReg rs1).getLsbD k ≠ (s.readReg rs2).getLsbD k) →
      t.pc.toNat = (s.pc.toNat + imm.toNat) % 2 ^ 32) ∧
    ((∀ k, k < 32 → (s.readReg rs1).getLsbD k = (s.readReg rs2).getLsbD k) → t.pc.toNat = (s.pc.toNat + 4) % 2 ^ 32) ∧
    SameRegs s t ∧ SameMemory s t ∧ SameFifos s t ∧ SameEnvironment s t

/-- A jump to a bad target completes, and the fault comes at the next fetch: JAL, JR and a taken BNE to an address that is
no multiple of 4 end in a state whose own processor step faults (R27, decision D3). -/
def Obligations.BadTargetFaultsAtTheNextFetch : Prop :=
  ∀ (i : Instr) (s t : State), (∃ rd imm, i = .jal rd imm) ∨ (∃ rs1, i = .jr rs1) ∨ (∃ rs1 rs2 imm, i = .bne rs1 rs2 imm) →
    exec i s = .next t → (∃ s1, ProcessorTurn t s1) →
    (t.pc.toNat % 4 ≠ 0 → step t = .fault (.misalignedFetch t.pc)) ∧
    (t.pc.toNat % 4 = 0 → 0x000fffff < t.pc.toNat → step t = .fault (.addressOutOfRange t.pc)) ∧
    (t.pc.toNat % 4 = 0 → t.pc.toNat ≤ 0x000fffff → t.pc.toNat ∉ s.config.text →
      step t = .fault (.fetchOutsideText t.pc))

/-! ## All instructions -/

/-- R21: `x0` reads as zero in every state; an instruction whose `rd` is `x0` writes no register and still does all else it
would do with another `rd`. -/
def Obligations.X0IsHardwired : Prop :=
  (∀ s : State, s.readReg 0#5 = 0#32) ∧
  (∀ (s t u : State) (i j : Instr) (r : Reg),
    ((∃ n, i = .csrr 0#5 n ∧ j = .csrr r n) ∨ (∃ a b, i = .add 0#5 a b ∧ j = .add r a b) ∨
      (∃ a imm, i = .addi 0#5 a imm ∧ j = .addi r a imm) ∨ (∃ a b, i = .mul 0#5 a b ∧ j = .mul r a b) ∨
      (∃ a imm, i = .lw 0#5 a imm ∧ j = .lw r a imm) ∨ (∃ imm, i = .jal 0#5 imm ∧ j = .jal r imm)) →
    exec i s = .next t → exec j s = .next u →
    SameRegs s t ∧ t.pc = u.pc ∧ t.mem = u.mem ∧ t.inq = u.inq ∧ t.outq = u.outq ∧ SameEnvironment u t)

/-- The frame of every instruction: no register but the destination of R23's table, no byte but the four a store
addresses, no FIFO but the one a CSR instruction names, and none of mode, parameters, the manager's record and its coming
moves changes. -/
def Obligations.InstructionFrame : Prop :=
  ∀ (i : Instr) (s t : State), exec i s = .next t →
    (∀ r : Reg, i.dest ≠ some r → t.readReg r = s.readReg r ∧ t.regWritten r = s.regWritten r) ∧
    (∀ a : Word, storeAddress i s = some a → ∀ b : Nat, (b < a.toNat ∨ a.toNat + 4 ≤ b) → t.mem.read b = s.mem.read b) ∧
    (storeAddress i s = none → SameMemory s t) ∧
    (∀ k : Channel, (∀ rd n, i = .csrr rd n → (n, k) ∉ inCsrs) → t.inFifo k = s.inFifo k) ∧
    (∀ k : Channel, (∀ n rs1, i = .csrw n rs1 → (n, k) ∉ outCsrs) → t.outFifo k = s.outFifo k) ∧
    SameEnvironment s t

/-- The next `pc` of every instruction, as the table of R26 has it (decision D9 for CSRR and CSRW: `pc + 4` on completion,
unchanged while stalled). -/
def Obligations.NextPcOfEveryInstruction : Prop :=
  ∀ (i : Instr) (s t : State), exec i s = .next t →
    match i with
    | .csrr _ n => if ∃ k, (n, k) ∈ inCsrs ∧ s.inFifo k = [] then t.pc = s.pc else t.pc = s.pc + 4#32
    | .csrw n _ => if ∃ k, (n, k) ∈ outCsrs ∧ s.outReady k = false then t.pc = s.pc else t.pc = s.pc + 4#32
    | .jal _ imm => t.pc = s.pc + imm
    | .jr rs1 => t.pc = s.readReg rs1
    | .bne rs1 rs2 imm => t.pc = if s.readReg rs1 ≠ s.readReg rs2 then s.pc + imm else s.pc + 4#32
    | .add _ _ _ | .addi _ _ _ | .mul _ _ _ | .lw _ _ _ | .sw _ _ _ => t.pc = s.pc + 4#32

/-- Which instruction raises which fault: the "Raised by" column of R161, without `UninitRegRead`, which the model does not
raise (log entry 2). No instruction is refused. -/
def Obligations.FaultsOfEachInstruction : Prop :=
  ∀ (i : Instr) (s : State),
    (∀ f, exec i s = .fault f →
      match f with
      | .misalignedAccess _ | .addressOutOfRange _ => (∃ rd a imm, i = .lw rd a imm) ∨ (∃ a b imm, i = .sw a b imm)
      | .uninitMemRead _ => ∃ rd a imm, i = .lw rd a imm
      | .storeToText _ => ∃ a b imm, i = .sw a b imm
      | .undefinedCsrAccess n .read => ∃ rd k, i = .csrr rd n ∧ (n, k) ∈ outCsrs
      | .undefinedCsrAccess n .write => ∃ a k, i = .csrw n a ∧ (n, k) ∈ inCsrs
      | .unsupportedCsr n => (∃ rd, i = .csrr rd n) ∨ (∃ a, i = .csrw n a)
      | .misalignedFetch _ | .fetchOutsideText _ | .illegalInstruction _ => False) ∧
    (∀ q, exec i s ≠ .refused q)

/-! ## Reset and the invariant -/

/-- R37: after reset the `pc` is `0x00000000`, and the first instruction executed is the word at bytes 0 to 3 (for a program
that has a word there; which word the four bytes make is the fetch's own `readWord`). -/
def Obligations.ResetStartsAtZero : Prop :=
  State.reset.pc = 0x00000000#32 ∧
  ∀ (c : Config) (m : Memory) (x : Vector Word 31), (State.launch c m x).pc = 0x00000000#32 ∧
    ∀ (w : Word) (i : Instr), 0 ∈ c.text → m.readWord 0 = some w → decode w = .ok i →
      step (State.launch c m x) = exec i (State.launch c m x)

/-- What reset leaves besides the `pc`: `x0` zero, no other register marked written, memory as `MEM_INIT`, the six FIFOs
empty, M-mode, the parameters as given (R190; decisions D12, D13, D14). `x1` to `x31` may hold any values. -/
def Obligations.ResetLeaves : Prop :=
  ∀ (c : Config) (m : Memory) (x : Vector Word 31) (r : Reg) (k : Channel),
    (State.launch c m x).readReg 0#5 = 0#32 ∧ ((State.launch c m x).regWritten r = true ↔ r = 0#5) ∧
    (∀ a, (State.launch c m x).mem.read a = m.read a) ∧ (State.launch c m x).inFifo k = [] ∧
    (State.launch c m x).outFifo k = [] ∧ (State.launch c m x).receivedFrom k = [] ∧ (State.launch c m x).mode = .machine ∧
    (State.launch c m x).config = c

/-- The invariant holds at reset (the parameters there are choices of the model's, log entries 4 and 5). -/
def Obligations.ResetMeetsTheInvariant : Prop := Inv State.reset

/-- The invariant holds after every launch with legal parameters: canonical `MEM_INIT`, a `TEXT` inside its domain, positive
depths (R4, R64, R191). -/
def Obligations.LaunchMeetsTheInvariant : Prop :=
  ∀ (c : Config) (m : Memory) (x : Vector Word 31), Memory.wf m → TextWf c.text m → DepthsPositive c → Inv (State.launch c m x)

/-- Every step, of the processor or of the manager, keeps the invariant: memory stays canonical, `TEXT` stays legal and in
memory, and no FIFO grows beyond its depth (R4, R31, R32, R64). -/
def Obligations.StepKeepsTheInvariant : Prop :=
  ∀ s t : State, Inv s → step s = .next t → Inv t

/-- "The bytes of the program never change" (R64, decision D17): after any run, every word of `TEXT` is what it was, and
`TEXT` is what it was. -/
def Obligations.ProgramNeverChanges : Prop :=
  ∀ (n : Nat) (s t : State), Inv s → run n s = .next t →
    t.config = s.config ∧ ∀ a ∈ s.config.text, ∀ k, k < 4 → t.mem.read (a + k) = s.mem.read (a + k)

/-- Two memories in canonical form that read alike at every address are the same list: the form is the model's own
(log entry 3). -/
def Obligations.CanonicalMemoriesAreEqual : Prop :=
  ∀ m n : Memory, Memory.wf m → Memory.wf n → (∀ a, m.read a = n.read a) → m = n

/-- The reset values of the registers cannot be observed by a program that writes each register before it reads it (R23,
R191, D12; log entries 1, 2): two states that differ at most in registers nothing has written make steps that differ at
most in such registers, unless the instruction reads one. -/
def Obligations.UnwrittenRegistersAreNotObserved : Prop :=
  ∀ s t : State, AgreeOnWritten s t → (∀ i, nextInstr s = some i → unwrittenSource i s = none) →
    OutcomesAgree (step s) (step t)

/-! ## The FIFOs and the external manager -/

/-- The manager's two moves, each with its enabling condition, and all they leave alone: registers, `pc`, memory, mode and
parameters (R31, R32, R173). That a move that is not enabled passes without effect is a choice of the model's (log entry
8). -/
def Obligations.ManagerMoves : Prop :=
  ∀ (s : State) (m : ManagerMove) (rest : List Turn), s.schedule = .manager m :: rest →
    ∃ t, step s = .next t ∧ t.schedule = rest ∧ t.pc = s.pc ∧ SameRegs s t ∧ SameMemory s t ∧ t.mode = s.mode ∧
      t.config = s.config ∧
      match m with
      | .enq i v =>
        t.inFifo i = (if s.config.inDepth[i].hasRoom (s.inFifo i).length then s.inFifo i ++ [v] else s.inFifo i) ∧
        (∀ j, j ≠ i → t.inFifo j = s.inFifo j) ∧ t.outq = s.outq ∧ t.received = s.received
      | .deq i =>
        t.outFifo i = (s.outFifo i).tail ∧ t.receivedFrom i = s.receivedFrom i ++ (s.outFifo i).take 1 ∧
        (∀ j, j ≠ i → t.outFifo j = s.outFifo j ∧ t.receivedFrom j = s.receivedFrom j) ∧ t.inq = s.inq

/-- An input FIFO changes in two ways only: the processor removes the head, by a CSRR of its number, or the manager appends
at the tail (R31). -/
def Obligations.InputFifosAreFirstInFirstOut : Prop :=
  ∀ (s t : State) (i : Channel), step s = .next t →
    t.inFifo i = s.inFifo i ∨
    (∃ s1 rd n v, ProcessorTurn s s1 ∧ nextInstr s1 = some (.csrr rd n) ∧ (n, i) ∈ inCsrs ∧
      s.inFifo i = v :: t.inFifo i) ∨
    (∃ v rest, s.schedule = .manager (.enq i v) :: rest ∧ t.inFifo i = s.inFifo i ++ [v])

/-- What leaves the processor on `out<i>` is kept in order: a step either leaves the manager's record followed by the
FIFO as it was, or is a CSRW of that number and appends its value (R32; of a register nothing has written, the
value is log entry 2's). -/
def Obligations.OutputStreamGrowsByCsrwOnly : Prop :=
  ∀ (s t : State) (i : Channel), step s = .next t →
    outStream t i = outStream s i ∨
    (∃ s1 n rs1, ProcessorTurn s s1 ∧ nextInstr s1 = some (.csrw n rs1) ∧ (n, i) ∈ outCsrs ∧
      outStream t i = outStream s i ++ [s.readReg rs1])

/-- Over any run nothing the processor wrote to `out<i>` is lost, reordered or changed (R32, which marks it as derived):
the manager's record grows by appending, and the record followed by the FIFO grows by exactly the values that the CSRWs of
`out<i>` completed in the run wrote, in program order. The events of a run are those of log entries 7 and 8; a value of a
register nothing has written is log entry 2's. -/
def Obligations.ManagerReceivesInProgramOrder : Prop :=
  ∀ (n : Nat) (s t : State) (i : Channel), run n s = .next t →
    (∃ got, t.receivedFrom i = s.receivedFrom i ++ got) ∧ outStream t i = outStream s i ++ csrwValues i n s

/-- Depth decides only when the processor stalls, never which values flow (R32, which marks this as derived): with other
output depths an instruction that moves on in both machines does the same in both, and it faults in one exactly when it faults in the other, with the same
fault. A stall is a next state by log entry 7. -/
def Obligations.OutputDepthsDecideOnlyStalls : Prop :=
  ∀ (i : Instr) (s : State) (d : Vector Depth 3),
    (∀ f, exec i s = .fault f ↔ exec i (withOutDepth s d) = .fault f) ∧
    (∀ t t', exec i s = .next t → exec i (withOutDepth s d) = .next t' →
      t' = withOutDepth t d ∨
      (∃ n rs1 k, i = .csrw n rs1 ∧ (n, k) ∈ outCsrs ∧
        ((s.outReady k = false ∧ t = s) ∨ ((withOutDepth s d).outReady k = false ∧ t' = withOutDepth s d))))

/-- The endless runs of R196, which the spec marks as derived: a `jal x0, 0`, a `bne` on itself whose registers differ,
and a stall that the manager does not lift change no state for ever. That the run goes on through a stall, as events that
answer the same state, is log entry 7 (the spec says that a stalled processor has no step); that an empty schedule means
processor events only is log entry 8; that a `bne` or a CSRW with a register nothing has written gets so far is log entry
2. -/
def Obligations.EndlessRunsChangeNothing : Prop :=
  ∀ (s : State) (i : Instr) (n : Nat), s.schedule = [] → nextInstr s = some i →
    (i = .jal 0#5 0#32 ∨ (∃ rs1 rs2, i = .bne rs1 rs2 0#32 ∧ s.readReg rs1 ≠ s.readReg rs2) ∨
      (∃ rd c k, i = .csrr rd c ∧ (c, k) ∈ inCsrs ∧ s.inFifo k = []) ∨
      (∃ c rs1 k, i = .csrw c rs1 ∧ (c, k) ∈ outCsrs ∧ s.outReady k = false)) →
    run n s = .next s

/-- A stall is lifted by the manager's move: a CSRR that waits on an empty `in<i>` completes with the value the manager
supplies, once it supplies one (R11, R31). That the stalled processor takes its turn off the schedule and answers the
state otherwise as it was is log entries 7 and 8 (R11 says that a stall is no step). -/
def Obligations.StallIsLiftedByTheManager : Prop :=
  ∀ (s : State) (rd : Reg) (n : CsrNum) (i : Channel) (v : Word), (n, i) ∈ inCsrs → s.inFifo i = [] →
    DepthsPositive s.config → nextInstr s = some (.csrr rd n) →
    s.schedule = [.processor, .manager (.enq i v), .processor] →
    ∃ t, run 1 s = .next { s with schedule := [.manager (.enq i v), .processor] } ∧ run 3 s = .next t ∧
      WritesReg rd v s t ∧ t.inFifo i = [] ∧ t.pc = s.pc + 4#32 ∧ SameMemory s t
end

