-- ==== Sys2Proof/Laws/Decode.lean ====
section
/-! SUPPORT. Fields of an encoded word, and the rows of the opcode map in terms of fields (spec/30_encoding.md R82,
R92). Every instruction type is a way to fill the six R-type fields, so one lemma per field serves all. -/

namespace Sys2Proof

/-- The value of two fields side by side. -/
theorem toNat_append_mul {n m : Nat} (x : BitVec n) (y : BitVec m) : (x ++ y).toNat = x.toNat * 2 ^ m + y.toNat := by
  rw [BitVec.toNat_append, ← Nat.shiftLeft_add_eq_or_of_lt y.isLt, Nat.shiftLeft_eq]

/-- The value of a field. -/
theorem toNat_field (w : Word) (lo len : Nat) : (w.extractLsb' lo len).toNat = w.toNat / 2 ^ lo % 2 ^ len := by
  simp [BitVec.extractLsb'_toNat, Nat.shiftRight_eq_div_pow]

section RType

variable (f7 : BitVec 7) (rs2 rs1 : Reg) (f3 : BitVec 3) (rd : Reg) (op : BitVec 7)

theorem toNat_encodeR : (encodeR f7 rs2 rs1 f3 rd op).toNat =
    f7.toNat * 33554432 + rs2.toNat * 1048576 + rs1.toNat * 32768 + f3.toNat * 4096 + rd.toNat * 128 + op.toNat := by
  simp only [encodeR, toNat_append_mul]
  omega

@[simp] theorem fieldOpcode_encodeR : fieldOpcode (encodeR f7 rs2 rs1 f3 rd op) = op := by
  apply BitVec.eq_of_toNat_eq
  have := op.isLt
  rw [fieldOpcode, toNat_field, toNat_encodeR]
  omega

@[simp] theorem fieldRd_encodeR : fieldRd (encodeR f7 rs2 rs1 f3 rd op) = rd := by
  apply BitVec.eq_of_toNat_eq
  have := op.isLt; have := rd.isLt
  rw [fieldRd, toNat_field, toNat_encodeR]
  omega

@[simp] theorem fieldFunct3_encodeR : fieldFunct3 (encodeR f7 rs2 rs1 f3 rd op) = f3 := by
  apply BitVec.eq_of_toNat_eq
  have := op.isLt; have := rd.isLt; have := f3.isLt
  rw [fieldFunct3, toNat_field, toNat_encodeR]
  omega

@[simp] theorem fieldRs1_encodeR : fieldRs1 (encodeR f7 rs2 rs1 f3 rd op) = rs1 := by
  apply BitVec.eq_of_toNat_eq
  have := op.isLt; have := rd.isLt; have := f3.isLt; have := rs1.isLt
  rw [fieldRs1, toNat_field, toNat_encodeR]
  omega

@[simp] theorem fieldRs2_encodeR : fieldRs2 (encodeR f7 rs2 rs1 f3 rd op) = rs2 := by
  apply BitVec.eq_of_toNat_eq
  have := op.isLt; have := rd.isLt; have := f3.isLt; have := rs1.isLt; have := rs2.isLt
  rw [fieldRs2, toNat_field, toNat_encodeR]
  omega

@[simp] theorem fieldFunct7_encodeR : fieldFunct7 (encodeR f7 rs2 rs1 f3 rd op) = f7 := by
  apply BitVec.eq_of_toNat_eq
  have := op.isLt; have := rd.isLt; have := f3.isLt; have := rs1.isLt; have := rs2.isLt; have := f7.isLt
  rw [fieldFunct7, toNat_field, toNat_encodeR]
  omega

end RType

/-- A word is its six R-type fields side by side (R82). -/
theorem encodeR_fields (w : Word) :
    encodeR (fieldFunct7 w) (fieldRs2 w) (fieldRs1 w) (fieldFunct3 w) (fieldRd w) (fieldOpcode w) = w := by
  apply BitVec.eq_of_toNat_eq
  have := w.isLt
  rw [toNat_encodeR]
  simp only [fieldFunct7, fieldRs2, fieldRs1, fieldFunct3, fieldRd, fieldOpcode, toNat_field]
  omega

/-- Two words are equal when their six fields are. -/
theorem encodeR_inj {a a' : BitVec 7} {b b' c c' : Reg} {d d' : BitVec 3} {e e' : Reg} {f f' : BitVec 7} :
    encodeR a b c d e f = encodeR a' b' c' d' e' f' ↔ a = a' ∧ b = b' ∧ c = c' ∧ d = d' ∧ e = e' ∧ f = f' := by
  constructor
  · intro h
    refine ⟨?_, ?_, ?_, ?_, ?_, ?_⟩
    · simpa using congrArg fieldFunct7 h
    · simpa using congrArg fieldRs2 h
    · simpa using congrArg fieldRs1 h
    · simpa using congrArg fieldFunct3 h
    · simpa using congrArg fieldRd h
    · simpa using congrArg fieldOpcode h
  · rintro ⟨rfl, rfl, rfl, rfl, rfl, rfl⟩; rfl

/-- Masking six fields side by side masks each of them. -/
theorem and_six_fields {n₁ n₂ n₃ n₄ n₅ n₆ : Nat} (a a' : BitVec n₁) (b b' : BitVec n₂) (c c' : BitVec n₃) (d d' : BitVec n₄)
    (e e' : BitVec n₅) (f f' : BitVec n₆) :
    (a ++ b ++ c ++ d ++ e ++ f) &&& (a' ++ b' ++ c' ++ d' ++ e' ++ f') =
      (a &&& a') ++ (b &&& b') ++ (c &&& c') ++ (d &&& d') ++ (e &&& e') ++ (f &&& f') := by
  simp only [BitVec.and_append]

/-- Masking a word masks each field. -/
theorem encodeR_and (a a' : BitVec 7) (b b' c c' : Reg) (d d' : BitVec 3) (e e' : Reg) (f f' : BitVec 7) :
    encodeR a b c d e f &&& encodeR a' b' c' d' e' f' =
      encodeR (a &&& a') (b &&& b') (c &&& c') (d &&& d') (e &&& e') (f &&& f') := by
  exact and_six_fields a a' b b' c c' d d' e e' f f'

/-- A row matches a word exactly when each field, masked, is the row's (R92). -/
theorem and_encodeR_eq_iff (w : Word) (a a' : BitVec 7) (b b' c c' : Reg) (d d' : BitVec 3) (e e' : Reg) (f f' : BitVec 7) :
    w &&& encodeR a b c d e f = encodeR a' b' c' d' e' f' ↔
      fieldFunct7 w &&& a = a' ∧ fieldRs2 w &&& b = b' ∧ fieldRs1 w &&& c = c' ∧ fieldFunct3 w &&& d = d' ∧
      fieldRd w &&& e = e' ∧ fieldOpcode w &&& f = f' := by
  conv_lhs => rw [← encodeR_fields w]
  rw [encodeR_and, encodeR_inj]

theorem and_127 (x : BitVec 7) : x &&& 127#7 = x := BitVec.and_allOnes (x := x)
theorem and_31 (x : BitVec 5) : x &&& 31#5 = x := BitVec.and_allOnes (x := x)
theorem and_7 (x : BitVec 3) : x &&& 7#3 = x := BitVec.and_allOnes (x := x)

/-! ## The rows of R92 in fields -/

theorem row_csrr (w : Word) : (w &&& 0x000ff07f#32 == 0x00002073#32) =
    (fieldRs1 w == 0b00000#5 && fieldFunct3 w == 0b010#3 && fieldOpcode w == 0b1110011#7) := by
  have h := and_encodeR_eq_iff w 0 0 0 0 31 0 7 0b010 0 0 127 0b1110011
  rw [show encodeR 0 0 31 7 0 127 = 0x000ff07f#32 from rfl, show encodeR 0 0 0 0b010 0 0b1110011 = 0x00002073#32 from rfl] at h
  rw [Bool.eq_iff_iff]
  simpa [and_127, and_31, and_7, and_assoc] using h

theorem row_csrw (w : Word) : (w &&& 0x00007fff#32 == 0x00001073#32) =
    (fieldFunct3 w == 0b001#3 && fieldRd w == 0b00000#5 && fieldOpcode w == 0b1110011#7) := by
  have h := and_encodeR_eq_iff w 0 0 0 0 0 0 7 0b001 31 0 127 0b1110011
  rw [show encodeR 0 0 0 7 31 127 = 0x00007fff#32 from rfl, show encodeR 0 0 0 0b001 0 0b1110011 = 0x00001073#32 from rfl] at h
  rw [Bool.eq_iff_iff]
  simpa [and_127, and_31, and_7, and_assoc] using h

theorem row_add (w : Word) : (w &&& 0xfe00707f#32 == 0x00000033#32) =
    (fieldFunct7 w == 0b0000000#7 && fieldFunct3 w == 0b000#3 && fieldOpcode w == 0b0110011#7) := by
  have h := and_encodeR_eq_iff w 127 0 0 0 0 0 7 0 0 0 127 0b0110011
  rw [show encodeR 127 0 0 7 0 127 = 0xfe00707f#32 from rfl, show encodeR 0 0 0 0 0 0b0110011 = 0x00000033#32 from rfl] at h
  rw [Bool.eq_iff_iff]
  simpa [and_127, and_31, and_7, and_assoc] using h

theorem row_addi (w : Word) : (w &&& 0x0000707f#32 == 0x00000013#32) =
    (fieldFunct3 w == 0b000#3 && fieldOpcode w == 0b0010011#7) := by
  have h := and_encodeR_eq_iff w 0 0 0 0 0 0 7 0 0 0 127 0b0010011
  rw [show encodeR 0 0 0 7 0 127 = 0x0000707f#32 from rfl, show encodeR 0 0 0 0 0 0b0010011 = 0x00000013#32 from rfl] at h
  rw [Bool.eq_iff_iff]
  simpa [and_127, and_31, and_7, and_assoc] using h

theorem row_mul (w : Word) : (w &&& 0xfe00707f#32 == 0x02000033#32) =
    (fieldFunct7 w == 0b0000001#7 && fieldFunct3 w == 0b000#3 && fieldOpcode w == 0b0110011#7) := by
  have h := and_encodeR_eq_iff w 127 1 0 0 0 0 7 0 0 0 127 0b0110011
  rw [show encodeR 127 0 0 7 0 127 = 0xfe00707f#32 from rfl, show encodeR 1 0 0 0 0 0b0110011 = 0x02000033#32 from rfl] at h
  rw [Bool.eq_iff_iff]
  simpa [and_127, and_31, and_7, and_assoc] using h

theorem row_lw (w : Word) : (w &&& 0x0000707f#32 == 0x00002003#32) =
    (fieldFunct3 w == 0b010#3 && fieldOpcode w == 0b0000011#7) := by
  have h := and_encodeR_eq_iff w 0 0 0 0 0 0 7 0b010 0 0 127 0b0000011
  rw [show encodeR 0 0 0 7 0 127 = 0x0000707f#32 from rfl, show encodeR 0 0 0 0b010 0 0b0000011 = 0x00002003#32 from rfl] at h
  rw [Bool.eq_iff_iff]
  simpa [and_127, and_31, and_7, and_assoc] using h

theorem row_sw (w : Word) : (w &&& 0x0000707f#32 == 0x00002023#32) =
    (fieldFunct3 w == 0b010#3 && fieldOpcode w == 0b0100011#7) := by
  have h := and_encodeR_eq_iff w 0 0 0 0 0 0 7 0b010 0 0 127 0b0100011
  rw [show encodeR 0 0 0 7 0 127 = 0x0000707f#32 from rfl, show encodeR 0 0 0 0b010 0 0b0100011 = 0x00002023#32 from rfl] at h
  rw [Bool.eq_iff_iff]
  simpa [and_127, and_31, and_7, and_assoc] using h

theorem row_jal (w : Word) : (w &&& 0x0000007f#32 == 0x0000006f#32) =
    (fieldOpcode w == 0b1101111#7) := by
  have h := and_encodeR_eq_iff w 0 0 0 0 0 0 0 0 0 0 127 0b1101111
  rw [show encodeR 0 0 0 0 0 127 = 0x0000007f#32 from rfl, show encodeR 0 0 0 0 0 0b1101111 = 0x0000006f#32 from rfl] at h
  rw [Bool.eq_iff_iff]
  simpa [and_127, and_31, and_7, and_assoc] using h

theorem row_jr (w : Word) : (w &&& 0xfff07fff#32 == 0x00000067#32) =
    (fieldFunct7 w == 0b0000000#7 && fieldRs2 w == 0b00000#5 && fieldFunct3 w == 0b000#3 && fieldRd w == 0b00000#5 && fieldOpcode w == 0b1100111#7) := by
  have h := and_encodeR_eq_iff w 127 0 31 0 0 0 7 0 31 0 127 0b1100111
  rw [show encodeR 127 31 0 7 31 127 = 0xfff07fff#32 from rfl, show encodeR 0 0 0 0 0 0b1100111 = 0x00000067#32 from rfl] at h
  rw [Bool.eq_iff_iff]
  simpa [and_127, and_31, and_7, and_assoc] using h

theorem row_bne (w : Word) : (w &&& 0x0000707f#32 == 0x00001063#32) =
    (fieldFunct3 w == 0b001#3 && fieldOpcode w == 0b1100011#7) := by
  have h := and_encodeR_eq_iff w 0 0 0 0 0 0 7 0b001 0 0 127 0b1100011
  rw [show encodeR 0 0 0 7 0 127 = 0x0000707f#32 from rfl, show encodeR 0 0 0 0b001 0 0b1100011 = 0x00001063#32 from rfl] at h
  rw [Bool.eq_iff_iff]
  simpa [and_127, and_31, and_7, and_assoc] using h

/-! ## The other instruction types as R-type fields -/

/-- An I-type word's immediate field lies over `funct7` and `rs2` (R82). -/
theorem encodeI_eq (imm : BitVec 12) (rs1 : Reg) (f3 : BitVec 3) (rd : Reg) (op : BitVec 7) :
    encodeI imm rs1 f3 rd op = encodeR (imm.extractLsb' 5 7) (imm.extractLsb' 0 5) rs1 f3 rd op := by
  apply BitVec.eq_of_toNat_eq
  have := imm.isLt
  rw [toNat_encodeR]
  simp only [encodeI, toNat_append_mul, BitVec.extractLsb'_toNat, Nat.shiftRight_eq_div_pow]
  omega

/-- An S-type word's immediate parts lie over `funct7` and `rd` (R82). -/
theorem encodeS_eq (hi : BitVec 7) (rs2 rs1 : Reg) (f3 : BitVec 3) (lo : BitVec 5) (op : BitVec 7) :
    encodeS hi rs2 rs1 f3 lo op = encodeR hi rs2 rs1 f3 lo op := rfl

/-- A U-type word's immediate field lies over `funct7`, `rs2`, `rs1` and `funct3` (R82). -/
theorem encodeU_eq (imm : BitVec 20) (rd : Reg) (op : BitVec 7) :
    encodeU imm rd op =
      encodeR (imm.extractLsb' 13 7) (imm.extractLsb' 8 5) (imm.extractLsb' 3 5) (imm.extractLsb' 0 3) rd op := by
  apply BitVec.eq_of_toNat_eq
  have := imm.isLt
  rw [toNat_encodeR]
  simp only [encodeU, toNat_append_mul, BitVec.extractLsb'_toNat, Nat.shiftRight_eq_div_pow]
  omega

end Sys2Proof
end

