-- ==== Sys2Proof/Laws/Immediates.lean ====
section
/-! SUPPORT. The immediates: what the decoder builds from the fields of a word (spec/30_encoding.md R86 to R89), and that
it builds the operand the encoder scattered, when that is in its range (R91). -/

namespace Sys2Proof

theorem immI_encodeR (f7 : BitVec 7) (a b : Reg) (f3 : BitVec 3) (rd : Reg) (op : BitVec 7) :
    immI (encodeR f7 a b f3 rd op) = (f7 ++ a).signExtend 32 := by
  unfold immI
  congr 1
  apply BitVec.eq_of_toNat_eq
  rw [toNat_field, toNat_encodeR, toNat_append_mul]
  have := f7.isLt; have := a.isLt; have := b.isLt; have := f3.isLt; have := rd.isLt; have := op.isLt
  omega

theorem fieldCsr_encodeR (f7 : BitVec 7) (a b : Reg) (f3 : BitVec 3) (rd : Reg) (op : BitVec 7) :
    fieldCsr (encodeR f7 a b f3 rd op) = f7 ++ a := by
  apply BitVec.eq_of_toNat_eq
  rw [fieldCsr, toNat_field, toNat_encodeR, toNat_append_mul]
  have := f7.isLt; have := a.isLt; have := b.isLt; have := f3.isLt; have := rd.isLt; have := op.isLt
  omega

theorem immS_encodeR (f7 : BitVec 7) (a b : Reg) (f3 : BitVec 3) (rd : Reg) (op : BitVec 7) :
    immS (encodeR f7 a b f3 rd op) = (f7 ++ rd).signExtend 32 := by
  have h1 := fieldFunct7_encodeR f7 a b f3 rd op
  have h2 := fieldRd_encodeR f7 a b f3 rd op
  unfold fieldFunct7 at h1
  unfold fieldRd at h2
  rw [immS, h1, h2]

/-- A bit of a word, by the field it lies in. -/
theorem getLsbD_encodeR (f7 : BitVec 7) (a b : Reg) (f3 : BitVec 3) (rd : Reg) (op : BitVec 7) (k : Nat) :
    (encodeR f7 a b f3 rd op).getLsbD k =
      if k < 7 then op.getLsbD k else if k < 12 then rd.getLsbD (k - 7) else if k < 15 then f3.getLsbD (k - 12)
      else if k < 20 then b.getLsbD (k - 15) else if k < 25 then a.getLsbD (k - 20) else f7.getLsbD (k - 25) := by
  show BitVec.getLsbD (w := 7 + 5 + 5 + 3 + 5 + 7) (f7 ++ a ++ b ++ f3 ++ rd ++ op) k = _
  simp only [BitVec.getLsbD_append]
  repeat' split
  all_goals first | rfl | omega

/-- An I- or S-immediate in its range is the extension of its 12 low bits. -/
theorem signExtend_imm12 {imm : Word} (h : fitsImm12 imm = true) : (imm.extractLsb' 0 12).signExtend 32 = imm := by
  simp only [fitsImm12, decide_eq_true_eq] at h
  apply BitVec.eq_of_toInt_eq
  rw [BitVec.toInt_signExtend_of_le (by decide)]
  simp only [BitVec.toInt_eq_toNat_cond, toNat_field] at *
  have := imm.isLt
  omega

/-- The bits above the sign bit of an extended value are the sign bit. -/
theorem getLsbD_of_signExtend {n : Nat} {imm : Word} (h : (imm.extractLsb' 0 n).signExtend 32 = imm) (hn : 0 < n) :
    ∀ k, n - 1 ≤ k → k < 32 → imm.getLsbD k = imm.getLsbD (n - 1) := by
  intro k hk hk2
  have e := congrArg (fun x => x.getLsbD k) h
  simp only [BitVec.getLsbD_signExtend] at e
  rw [← e]
  by_cases e : k < n
  · have : k = n - 1 := by omega
    subst this; simp [e]; omega
  · simp [e, hk2, BitVec.msb_eq_getLsbD_last]; omega

/-- A B-immediate in its range is even and the extension of its 13 low bits. -/
theorem signExtend_immB {imm : Word} (h : fitsImmB imm = true) :
    (imm.extractLsb' 0 13).signExtend 32 = imm ∧ imm.getLsbD 0 = false := by
  simp only [fitsImmB, decide_eq_true_eq] at h
  have hb := imm.isLt
  constructor
  · apply BitVec.eq_of_toInt_eq
    rw [BitVec.toInt_signExtend_of_le (by decide)]
    simp only [BitVec.toInt_eq_toNat_cond, toNat_field] at *
    omega
  · simp only [BitVec.toInt_eq_toNat_cond] at h
    have : imm.toNat % 2 = 0 := by omega
    simp [BitVec.getLsbD, this, Nat.testBit_zero]

/-- A J-immediate in its range is even and the extension of its 21 low bits. -/
theorem signExtend_immJ {imm : Word} (h : fitsImmJ imm = true) :
    (imm.extractLsb' 0 21).signExtend 32 = imm ∧ imm.getLsbD 0 = false := by
  simp only [fitsImmJ, decide_eq_true_eq] at h
  have hb := imm.isLt
  constructor
  · apply BitVec.eq_of_toInt_eq
    rw [BitVec.toInt_signExtend_of_le (by decide)]
    simp only [BitVec.toInt_eq_toNat_cond, toNat_field] at *
    omega
  · simp only [BitVec.toInt_eq_toNat_cond] at h
    have : imm.toNat % 2 = 0 := by omega
    simp [BitVec.getLsbD, this, Nat.testBit_zero]

/-- R89 undoes the encoder's scattering of a B-immediate. -/
theorem immB_encode_bne {imm : Word} (h : fitsImmB imm = true) (rs1 rs2 : Reg) : immB (encode (.bne rs1 rs2 imm)) = imm := by
  obtain ⟨h1, h0⟩ := signExtend_immB h
  have h2 := getLsbD_of_signExtend h1 (by decide)
  apply BitVec.eq_of_getLsbD_eq
  intro k hk
  simp only [encode, encodeS_eq, immB, scatterBHi, scatterBLo, BitVec.getLsbD_signExtend, BitVec.getLsbD_append,
    BitVec.msb_eq_getLsbD_last, BitVec.getLsbD_extractLsb', getLsbD_encodeR]
  interval_cases k <;> simp [-BitVec.getLsbD_eq_getElem, h0] <;> exact (h2 _ (by decide) (by decide)).symm

/-- R88 undoes the encoder's scattering of a J-immediate. -/
theorem immJ_encode_jal {imm : Word} (h : fitsImmJ imm = true) (rd : Reg) : immJ (encode (.jal rd imm)) = imm := by
  obtain ⟨h1, h0⟩ := signExtend_immJ h
  have h2 := getLsbD_of_signExtend h1 (by decide)
  apply BitVec.eq_of_getLsbD_eq
  intro k hk
  simp only [encode, encodeU_eq, immJ, scatterJ, BitVec.getLsbD_signExtend, BitVec.getLsbD_append,
    BitVec.msb_eq_getLsbD_last, BitVec.getLsbD_extractLsb', getLsbD_encodeR]
  interval_cases k <;> simp [-BitVec.getLsbD_eq_getElem, h0] <;> exact (h2 _ (by decide) (by decide)).symm

end Sys2Proof
end

