-- ==== Sys2Proof/Laws/State.lean ====
section
/-! SUPPORT. What each update of State leaves in each field and in each accessor: one lemma per field and update, for
`simp`, so that no proof unfolds an update. -/

namespace Sys2Proof.Machine

variable (s : State) (t v : Word) (r : Reg) (i k : Channel) (q : List Word)

/-! ### `setPc` -/

@[simp] theorem State.setPc_regs : (s.setPc t).regs = s.regs := rfl
@[simp] theorem State.setPc_pc : (s.setPc t).pc = t := rfl
@[simp] theorem State.setPc_mem : (s.setPc t).mem = s.mem := rfl
@[simp] theorem State.setPc_inq : (s.setPc t).inq = s.inq := rfl
@[simp] theorem State.setPc_outq : (s.setPc t).outq = s.outq := rfl
@[simp] theorem State.setPc_mode : (s.setPc t).mode = s.mode := rfl
@[simp] theorem State.setPc_written : (s.setPc t).written = s.written := rfl
@[simp] theorem State.setPc_config : (s.setPc t).config = s.config := rfl
@[simp] theorem State.setPc_received : (s.setPc t).received = s.received := rfl
@[simp] theorem State.setPc_schedule : (s.setPc t).schedule = s.schedule := rfl
@[simp] theorem State.readReg_setPc : (s.setPc t).readReg r = s.readReg r := rfl
@[simp] theorem State.regWritten_setPc : (s.setPc t).regWritten r = s.regWritten r := rfl
@[simp] theorem State.inFifo_setPc : (s.setPc t).inFifo i = s.inFifo i := rfl
@[simp] theorem State.outFifo_setPc : (s.setPc t).outFifo i = s.outFifo i := rfl
@[simp] theorem State.receivedFrom_setPc : (s.setPc t).receivedFrom i = s.receivedFrom i := rfl
@[simp] theorem State.inRoom_setPc : (s.setPc t).inRoom i = s.inRoom i := rfl
@[simp] theorem State.outReady_setPc : (s.setPc t).outReady i = s.outReady i := rfl
@[simp] theorem State.inText_setPc (w : Word) : (s.setPc t).inText w = s.inText w := rfl

/-! ### `advance` -/

@[simp] theorem State.advance_regs : s.advance.regs = s.regs := rfl
@[simp] theorem State.advance_pc : s.advance.pc = s.pc + 4#32 := rfl
@[simp] theorem State.advance_mem : s.advance.mem = s.mem := rfl
@[simp] theorem State.advance_inq : s.advance.inq = s.inq := rfl
@[simp] theorem State.advance_outq : s.advance.outq = s.outq := rfl
@[simp] theorem State.advance_mode : s.advance.mode = s.mode := rfl
@[simp] theorem State.advance_written : s.advance.written = s.written := rfl
@[simp] theorem State.advance_config : s.advance.config = s.config := rfl
@[simp] theorem State.advance_received : s.advance.received = s.received := rfl
@[simp] theorem State.advance_schedule : s.advance.schedule = s.schedule := rfl
@[simp] theorem State.readReg_advance : s.advance.readReg r = s.readReg r := rfl
@[simp] theorem State.regWritten_advance : s.advance.regWritten r = s.regWritten r := rfl
@[simp] theorem State.inFifo_advance : s.advance.inFifo i = s.inFifo i := rfl
@[simp] theorem State.outFifo_advance : s.advance.outFifo i = s.outFifo i := rfl
@[simp] theorem State.receivedFrom_advance : s.advance.receivedFrom i = s.receivedFrom i := rfl
@[simp] theorem State.inRoom_advance : s.advance.inRoom i = s.inRoom i := rfl
@[simp] theorem State.outReady_advance : s.advance.outReady i = s.outReady i := rfl
@[simp] theorem State.inText_advance (w : Word) : s.advance.inText w = s.inText w := rfl

/-! ### `writeReg` -/

@[simp] theorem State.writeReg_pc : (s.writeReg r v).pc = s.pc := by unfold State.writeReg; split <;> rfl
@[simp] theorem State.writeReg_mem : (s.writeReg r v).mem = s.mem := by unfold State.writeReg; split <;> rfl
@[simp] theorem State.writeReg_inq : (s.writeReg r v).inq = s.inq := by unfold State.writeReg; split <;> rfl
@[simp] theorem State.writeReg_outq : (s.writeReg r v).outq = s.outq := by unfold State.writeReg; split <;> rfl
@[simp] theorem State.writeReg_mode : (s.writeReg r v).mode = s.mode := by unfold State.writeReg; split <;> rfl
@[simp] theorem State.writeReg_config : (s.writeReg r v).config = s.config := by unfold State.writeReg; split <;> rfl
@[simp] theorem State.writeReg_received : (s.writeReg r v).received = s.received := by unfold State.writeReg; split <;> rfl
@[simp] theorem State.writeReg_schedule : (s.writeReg r v).schedule = s.schedule := by unfold State.writeReg; split <;> rfl
@[simp] theorem State.inFifo_writeReg : (s.writeReg r v).inFifo i = s.inFifo i := by unfold State.writeReg; split <;> rfl
@[simp] theorem State.outFifo_writeReg : (s.writeReg r v).outFifo i = s.outFifo i := by unfold State.writeReg; split <;> rfl
@[simp] theorem State.receivedFrom_writeReg : (s.writeReg r v).receivedFrom i = s.receivedFrom i := by unfold State.writeReg; split <;> rfl
@[simp] theorem State.inRoom_writeReg : (s.writeReg r v).inRoom i = s.inRoom i := by unfold State.writeReg; split <;> rfl
@[simp] theorem State.outReady_writeReg : (s.writeReg r v).outReady i = s.outReady i := by unfold State.writeReg; split <;> rfl
@[simp] theorem State.inText_writeReg (w : Word) : (s.writeReg r v).inText w = s.inText w := by unfold State.writeReg; split <;> rfl

/-! ### `storeWord` -/

@[simp] theorem State.storeWord_regs : (s.storeWord t v).regs = s.regs := rfl
@[simp] theorem State.storeWord_pc : (s.storeWord t v).pc = s.pc := rfl
@[simp] theorem State.storeWord_mem : (s.storeWord t v).mem = s.mem.writeWord t.toNat v := rfl
@[simp] theorem State.storeWord_inq : (s.storeWord t v).inq = s.inq := rfl
@[simp] theorem State.storeWord_outq : (s.storeWord t v).outq = s.outq := rfl
@[simp] theorem State.storeWord_mode : (s.storeWord t v).mode = s.mode := rfl
@[simp] theorem State.storeWord_written : (s.storeWord t v).written = s.written := rfl
@[simp] theorem State.storeWord_config : (s.storeWord t v).config = s.config := rfl
@[simp] theorem State.storeWord_received : (s.storeWord t v).received = s.received := rfl
@[simp] theorem State.storeWord_schedule : (s.storeWord t v).schedule = s.schedule := rfl
@[simp] theorem State.readReg_storeWord : (s.storeWord t v).readReg r = s.readReg r := rfl
@[simp] theorem State.regWritten_storeWord : (s.storeWord t v).regWritten r = s.regWritten r := rfl
@[simp] theorem State.inFifo_storeWord : (s.storeWord t v).inFifo i = s.inFifo i := rfl
@[simp] theorem State.outFifo_storeWord : (s.storeWord t v).outFifo i = s.outFifo i := rfl
@[simp] theorem State.receivedFrom_storeWord : (s.storeWord t v).receivedFrom i = s.receivedFrom i := rfl
@[simp] theorem State.inRoom_storeWord : (s.storeWord t v).inRoom i = s.inRoom i := rfl
@[simp] theorem State.outReady_storeWord : (s.storeWord t v).outReady i = s.outReady i := rfl
@[simp] theorem State.inText_storeWord (w : Word) : (s.storeWord t v).inText w = s.inText w := rfl

/-! ### `setInFifo` -/

@[simp] theorem State.setInFifo_regs : (s.setInFifo k q).regs = s.regs := rfl
@[simp] theorem State.setInFifo_pc : (s.setInFifo k q).pc = s.pc := rfl
@[simp] theorem State.setInFifo_mem : (s.setInFifo k q).mem = s.mem := rfl
@[simp] theorem State.setInFifo_outq : (s.setInFifo k q).outq = s.outq := rfl
@[simp] theorem State.setInFifo_mode : (s.setInFifo k q).mode = s.mode := rfl
@[simp] theorem State.setInFifo_written : (s.setInFifo k q).written = s.written := rfl
@[simp] theorem State.setInFifo_config : (s.setInFifo k q).config = s.config := rfl
@[simp] theorem State.setInFifo_received : (s.setInFifo k q).received = s.received := rfl
@[simp] theorem State.setInFifo_schedule : (s.setInFifo k q).schedule = s.schedule := rfl
@[simp] theorem State.readReg_setInFifo : (s.setInFifo k q).readReg r = s.readReg r := rfl
@[simp] theorem State.regWritten_setInFifo : (s.setInFifo k q).regWritten r = s.regWritten r := rfl
@[simp] theorem State.outFifo_setInFifo : (s.setInFifo k q).outFifo i = s.outFifo i := rfl
@[simp] theorem State.receivedFrom_setInFifo : (s.setInFifo k q).receivedFrom i = s.receivedFrom i := rfl
@[simp] theorem State.outReady_setInFifo : (s.setInFifo k q).outReady i = s.outReady i := rfl
@[simp] theorem State.inText_setInFifo (w : Word) : (s.setInFifo k q).inText w = s.inText w := rfl

/-! ### `setOutFifo` -/

@[simp] theorem State.setOutFifo_regs : (s.setOutFifo k q).regs = s.regs := rfl
@[simp] theorem State.setOutFifo_pc : (s.setOutFifo k q).pc = s.pc := rfl
@[simp] theorem State.setOutFifo_mem : (s.setOutFifo k q).mem = s.mem := rfl
@[simp] theorem State.setOutFifo_inq : (s.setOutFifo k q).inq = s.inq := rfl
@[simp] theorem State.setOutFifo_mode : (s.setOutFifo k q).mode = s.mode := rfl
@[simp] theorem State.setOutFifo_written : (s.setOutFifo k q).written = s.written := rfl
@[simp] theorem State.setOutFifo_config : (s.setOutFifo k q).config = s.config := rfl
@[simp] theorem State.setOutFifo_received : (s.setOutFifo k q).received = s.received := rfl
@[simp] theorem State.setOutFifo_schedule : (s.setOutFifo k q).schedule = s.schedule := rfl
@[simp] theorem State.readReg_setOutFifo : (s.setOutFifo k q).readReg r = s.readReg r := rfl
@[simp] theorem State.regWritten_setOutFifo : (s.setOutFifo k q).regWritten r = s.regWritten r := rfl
@[simp] theorem State.inFifo_setOutFifo : (s.setOutFifo k q).inFifo i = s.inFifo i := rfl
@[simp] theorem State.receivedFrom_setOutFifo : (s.setOutFifo k q).receivedFrom i = s.receivedFrom i := rfl
@[simp] theorem State.inRoom_setOutFifo : (s.setOutFifo k q).inRoom i = s.inRoom i := rfl
@[simp] theorem State.inText_setOutFifo (w : Word) : (s.setOutFifo k q).inText w = s.inText w := rfl

/-! ### `setReceived` -/

@[simp] theorem State.setReceived_regs : (s.setReceived k q).regs = s.regs := rfl
@[simp] theorem State.setReceived_pc : (s.setReceived k q).pc = s.pc := rfl
@[simp] theorem State.setReceived_mem : (s.setReceived k q).mem = s.mem := rfl
@[simp] theorem State.setReceived_inq : (s.setReceived k q).inq = s.inq := rfl
@[simp] theorem State.setReceived_outq : (s.setReceived k q).outq = s.outq := rfl
@[simp] theorem State.setReceived_mode : (s.setReceived k q).mode = s.mode := rfl
@[simp] theorem State.setReceived_written : (s.setReceived k q).written = s.written := rfl
@[simp] theorem State.setReceived_config : (s.setReceived k q).config = s.config := rfl
@[simp] theorem State.setReceived_schedule : (s.setReceived k q).schedule = s.schedule := rfl
@[simp] theorem State.readReg_setReceived : (s.setReceived k q).readReg r = s.readReg r := rfl
@[simp] theorem State.regWritten_setReceived : (s.setReceived k q).regWritten r = s.regWritten r := rfl
@[simp] theorem State.inFifo_setReceived : (s.setReceived k q).inFifo i = s.inFifo i := rfl
@[simp] theorem State.outFifo_setReceived : (s.setReceived k q).outFifo i = s.outFifo i := rfl
@[simp] theorem State.inRoom_setReceived : (s.setReceived k q).inRoom i = s.inRoom i := rfl
@[simp] theorem State.outReady_setReceived : (s.setReceived k q).outReady i = s.outReady i := rfl
@[simp] theorem State.inText_setReceived (w : Word) : (s.setReceived k q).inText w = s.inText w := rfl

@[simp] theorem State.readReg_with_schedule (x : List Turn) : State.readReg { s with schedule := x } r = s.readReg r := rfl
@[simp] theorem State.regWritten_with_schedule (x : List Turn) : State.regWritten { s with schedule := x } r = s.regWritten r := rfl
@[simp] theorem State.inFifo_with_schedule (x : List Turn) : State.inFifo { s with schedule := x } i = s.inFifo i := rfl
@[simp] theorem State.outFifo_with_schedule (x : List Turn) : State.outFifo { s with schedule := x } i = s.outFifo i := rfl
@[simp] theorem State.receivedFrom_with_schedule (x : List Turn) : State.receivedFrom { s with schedule := x } i = s.receivedFrom i := rfl
@[simp] theorem State.inRoom_with_schedule (x : List Turn) : State.inRoom { s with schedule := x } i = s.inRoom i := rfl
@[simp] theorem State.outReady_with_schedule (x : List Turn) : State.outReady { s with schedule := x } i = s.outReady i := rfl
@[simp] theorem State.inText_with_schedule (x : List Turn) (w : Word) : State.inText { s with schedule := x } w = s.inText w := rfl

/-! ### What changes -/

/-- `x0` reads as zero in every state (R21). -/
@[simp] theorem State.readReg_zero : s.readReg 0#5 = 0#32 := rfl
@[simp] theorem State.regWritten_zero : s.regWritten 0#5 = true := rfl

/-- A write of `x0` is discarded (R21). -/
@[simp] theorem State.writeReg_zero : s.writeReg 0#5 v = s := rfl

/-- Two registers other than `x0` have the same place only if they are the same. -/
theorem regIndex_inj {r p : Reg} (hr : r ≠ 0#5) (hp : p ≠ 0#5) : regIndex r = regIndex p ↔ r = p := by
  have hr' : r.toNat ≠ 0 := fun h => hr (BitVec.eq_of_toNat_eq (by simpa using h))
  have hp' : p.toNat ≠ 0 := fun h => hp (BitVec.eq_of_toNat_eq (by simpa using h))
  constructor
  · intro h
    have : r.toNat - 1 = p.toNat - 1 := congrArg Fin.val h
    exact BitVec.eq_of_toNat_eq (by omega)
  · rintro rfl; rfl

/-- What a register reads as after a write (R21). -/
theorem State.readReg_writeReg (p : Reg) :
    (s.writeReg p v).readReg r = if r = p ∧ r ≠ 0#5 then v else s.readReg r := by
  unfold State.readReg State.writeReg
  by_cases hr : r = 0#5
  · simp [hr]
  · by_cases hp : p = 0#5
    · simp [hp, hr]
    · simp only [hr, hp, if_false, ne_eq, not_false_eq_true, and_true]
      by_cases h : r = p
      · simp [h]
      · have : (regIndex p : Nat) ≠ regIndex r := fun e => h ((regIndex_inj hp hr).1 (Fin.ext e)).symm
        simp [h, this]

/-- Which registers are marked after a write (R36). -/
theorem State.regWritten_writeReg (p : Reg) :
    (s.writeReg p v).regWritten r = (s.regWritten r || r == p) := by
  unfold State.regWritten State.writeReg
  by_cases hr : r = 0#5
  · simp [hr]
  · by_cases hp : p = 0#5
    · simp [hp, hr]
    · simp only [hr, hp, if_false]
      by_cases h : r = p
      · simp [h]
      · have : (regIndex p : Nat) ≠ regIndex r := fun e => h ((regIndex_inj hp hr).1 (Fin.ext e)).symm
        simp [h, this]

/-- A register other than the one written keeps its value. -/
theorem State.readReg_writeReg_of_ne {r p : Reg} (h : r ≠ p) : (s.writeReg p v).readReg r = s.readReg r := by
  rw [State.readReg_writeReg, if_neg (fun e => h e.1)]

theorem State.inFifo_setInFifo : (s.setInFifo k q).inFifo i = if i = k then q else s.inFifo i := by
  unfold State.inFifo State.setInFifo
  by_cases h : i = k
  · simp [h]
  · have : (k : Nat) ≠ i := fun e => h (Fin.ext e).symm
    simp [h, this]

theorem State.outFifo_setOutFifo : (s.setOutFifo k q).outFifo i = if i = k then q else s.outFifo i := by
  unfold State.outFifo State.setOutFifo
  by_cases h : i = k
  · simp [h]
  · have : (k : Nat) ≠ i := fun e => h (Fin.ext e).symm
    simp [h, this]

theorem State.receivedFrom_setReceived : (s.setReceived k q).receivedFrom i = if i = k then q else s.receivedFrom i := by
  unfold State.receivedFrom State.setReceived
  by_cases h : i = k
  · simp [h]
  · have : (k : Nat) ≠ i := fun e => h (Fin.ext e).symm
    simp [h, this]

end Sys2Proof.Machine
end

