-- ==== Sys2Proof/Laws/Memory.lean ====
section
/-! SUPPORT. Memory: read after write, the canonical form, words (spec/20_memory.md R50, R54, R55, R61). -/

namespace Sys2Proof.Machine

/-- What a byte reads as after a write. -/
theorem Memory.read_write (m : Memory) (k j : Nat) (v : Byte) :
    (m.write k v).read j = if j = k then some v else m.read j := by
  induction m with
  | nil => rfl
  | cons c rest ih =>
    obtain ⟨a, b⟩ := c
    simp only [Memory.write]
    split
    · rfl
    · split
      · subst_vars
        simp only [Memory.read]
        split <;> rfl
      · simp only [Memory.read, ih]
        split
        · have : j ≠ k := by omega
          simp [this]
        · rfl

@[simp] theorem Memory.read_write_same (m : Memory) (k : Nat) (v : Byte) : (m.write k v).read k = some v := by
  simp [Memory.read_write]

theorem Memory.read_write_of_ne (m : Memory) {k j : Nat} (v : Byte) (h : j ≠ k) : (m.write k v).read j = m.read j := by
  simp [Memory.read_write, h]

/-- The listed addresses after a write are those before it and the one written. -/
theorem Memory.mem_write {m : Memory} {k : Nat} {v : Byte} {c : Host.Cell} (h : c ∈ m.write k v) :
    c = (k, v) ∨ c ∈ m := by
  induction m with
  | nil => simpa [Memory.write] using h
  | cons d rest ih =>
    simp only [Memory.write] at h
    split at h
    · rcases List.mem_cons.1 h with h | h
      · exact .inl h
      · exact .inr h
    · split at h
      · rcases List.mem_cons.1 h with h | h
        · exact .inl h
        · exact .inr (List.mem_cons_of_mem _ h)
      · rcases List.mem_cons.1 h with h | h
        · exact .inr (h ▸ List.mem_cons_self)
        · exact (ih h).imp id (List.mem_cons_of_mem _)

/-- A write inside the address space keeps the canonical form. -/
theorem Memory.wf_write {m : Memory} (h : m.wf) {k : Nat} (hk : k < memSize) (v : Byte) : (m.write k v).wf := by
  refine ⟨?_, fun c hc => (Memory.mem_write hc).elim (fun e => e ▸ hk) (h.2 c)⟩
  have hp := h.1
  clear h
  induction m with
  | nil => exact List.pairwise_singleton _ _
  | cons d rest ih =>
    obtain ⟨a, b⟩ := d
    obtain ⟨hd, hr⟩ := List.pairwise_cons.1 hp
    simp only [Memory.write]
    split
    · rename_i hlt
      refine List.pairwise_cons.2 ⟨fun c hc => ?_, hp⟩
      rcases List.mem_cons.1 hc with rfl | hc
      · exact hlt
      · exact Nat.lt_trans hlt (hd c hc)
    · split
      · subst_vars
        exact List.pairwise_cons.2 ⟨hd, hr⟩
      · refine List.pairwise_cons.2 ⟨fun c hc => ?_, ih hr⟩
        rcases Memory.mem_write hc with rfl | hc
        · show a < k
          omega
        · exact hd c hc

/-- A store of a word inside the address space keeps the canonical form. -/
theorem Memory.wf_writeWord {m : Memory} (h : m.wf) {a : Nat} (ha : a + 3 < memSize) (v : Word) : (m.writeWord a v).wf :=
  Memory.wf_write (Memory.wf_write (Memory.wf_write (Memory.wf_write h (by omega) _) (by omega) _) (by omega) _) ha _

/-- What a byte reads as after a store of a word. -/
theorem Memory.read_writeWord (m : Memory) (a j : Nat) (v : Word) :
    (m.writeWord a v).read j =
      if j = a + 3 then some (wordByte v 3) else if j = a + 2 then some (wordByte v 2)
      else if j = a + 1 then some (wordByte v 1) else if j = a then some (wordByte v 0) else m.read j := by
  simp only [Memory.writeWord, Memory.read_write]

/-- A byte outside the stored word reads as before. -/
theorem Memory.read_writeWord_outside (m : Memory) {a j : Nat} (v : Word) (h : j < a ∨ a + 4 ≤ j) :
    (m.writeWord a v).read j = m.read j := by
  rw [Memory.read_writeWord, if_neg (by omega), if_neg (by omega), if_neg (by omega), if_neg (by omega)]

/-- The four bytes of a word make the word. -/
theorem wordOfBytes_wordByte (v : Word) :
    wordOfBytes (wordByte v 0) (wordByte v 1) (wordByte v 2) (wordByte v 3) = v := by
  apply BitVec.eq_of_toNat_eq
  have := v.isLt
  simp only [wordOfBytes, wordByte, BitVec.toNat_append, BitVec.extractLsb'_toNat, Nat.shiftRight_eq_div_pow,
    Nat.shiftLeft_eq]
  rw [← Nat.shiftLeft_eq, ← Nat.shiftLeft_eq, ← Nat.shiftLeft_eq,
    ← Nat.shiftLeft_add_eq_or_of_lt (by omega), ← Nat.shiftLeft_add_eq_or_of_lt (by omega),
    ← Nat.shiftLeft_add_eq_or_of_lt (by omega)]
  simp only [Nat.shiftLeft_eq]
  omega

/-- A load of a word after a store of it gives it back (R61). -/
theorem Memory.readWord_writeWord_same (m : Memory) (a : Nat) (v : Word) : (m.writeWord a v).readWord a = some v := by
  simp [Memory.readWord, Memory.read_writeWord, wordOfBytes_wordByte]

/-- A load of a word that shares no byte with the stored one reads as before. -/
theorem Memory.readWord_writeWord_disjoint (m : Memory) {a k : Nat} (v : Word) (h : k + 4 ≤ a ∨ a + 4 ≤ k) :
    (m.writeWord a v).readWord k = m.readWord k := by
  simp only [Memory.readWord]
  rw [Memory.read_writeWord_outside m v (by omega), Memory.read_writeWord_outside m v (by omega),
    Memory.read_writeWord_outside m v (by omega), Memory.read_writeWord_outside m v (by omega)]

/-- A byte that held a value still holds one after a store. -/
theorem Memory.readWord_isSome_writeWord {m : Memory} {k : Nat} (h : (m.readWord k).isSome = true) (a : Nat) (v : Word) :
    ((m.writeWord a v).readWord k).isSome = true := by
  have keep : ∀ j, (m.read j).isSome = true → ((m.writeWord a v).read j).isSome = true := by
    intro j hj
    rw [Memory.read_writeWord]
    repeat' split
    all_goals first | rfl | exact hj
  have parts : ∀ n : Memory, (n.readWord k).isSome = true ↔ ((n.read k).isSome = true ∧ (n.read (k + 1)).isSome = true ∧
      (n.read (k + 2)).isSome = true ∧ (n.read (k + 3)).isSome = true) := by
    intro n
    simp only [Memory.readWord]
    cases n.read k <;> cases n.read (k + 1) <;> cases n.read (k + 2) <;> cases n.read (k + 3) <;> simp
  rw [parts] at h ⊢
  exact ⟨keep _ h.1, keep _ h.2.1, keep _ h.2.2.1, keep _ h.2.2.2⟩

/-- A listed byte reads as what is listed, when addresses rise. -/
theorem Memory.read_eq_some_of_mem {m : Memory} (h : m.Pairwise (fun c d => c.1 < d.1)) {a : Nat} {b : Byte}
    (hc : (a, b) ∈ m) : m.read a = some b := by
  induction m with
  | nil => simp at hc
  | cons d rest ih =>
    obtain ⟨hd, hr⟩ := List.pairwise_cons.1 h
    rcases List.mem_cons.1 hc with rfl | hc
    · simp [Memory.read]
    · have : a ≠ d.1 := Nat.ne_of_gt (hd _ hc)
      simp only [Memory.read, this, if_false]
      exact ih hr hc

/-- A byte that reads as a value is listed. -/
theorem Memory.mem_of_read_eq_some {m : Memory} {a : Nat} {b : Byte} (h : m.read a = some b) : (a, b) ∈ m := by
  induction m with
  | nil => simp [Memory.read] at h
  | cons d rest ih =>
    simp only [Memory.read] at h
    split at h
    · rename_i e
      simp only [Option.some.injEq] at h
      exact List.mem_cons.2 (.inl (by rw [e, ← h]))
    · exact List.mem_cons_of_mem _ (ih h)

/-! ## `TEXT` -/

theorem mem_insertText (l : List Nat) (k a : Nat) : a ∈ insertText l k ↔ a = k ∨ a ∈ l := by
  induction l with
  | nil => simp [insertText]
  | cons b rest ih =>
    simp only [insertText]
    split
    · simp
    · split
      · subst_vars; simp
      · simp only [List.mem_cons, ih]; tauto

theorem pairwise_insertText {l : List Nat} (h : l.Pairwise (· < ·)) (k : Nat) : (insertText l k).Pairwise (· < ·) := by
  induction l with
  | nil => exact List.pairwise_singleton _ _
  | cons b rest ih =>
    obtain ⟨hb, hr⟩ := List.pairwise_cons.1 h
    simp only [insertText]
    split
    · rename_i hlt
      refine List.pairwise_cons.2 ⟨fun c hc => ?_, h⟩
      rcases List.mem_cons.1 hc with rfl | hc
      · exact hlt
      · exact Nat.lt_trans hlt (hb c hc)
    · split
      · exact h
      · refine List.pairwise_cons.2 ⟨fun c hc => ?_, ih hr⟩
        rcases (mem_insertText _ _ _).1 hc with rfl | hc
        · omega
        · exact hb c hc

end Sys2Proof.Machine
end

