-- ==== Sys2Proof/Laws/Ops.lean ====
section
/-! SUPPORT. One lemma per shared operation that says once everything it can do; other proofs cite these and do not
unfold the operation. -/

namespace Sys2Proof.Machine

/-! ## Addresses -/

theorem aligned_iff (a : Word) : aligned a = true ↔ a.toNat % 4 = 0 := by
  unfold aligned
  rw [beq_iff_eq, ← BitVec.toNat_inj]
  simp [BitVec.extractLsb'_toNat]

theorem inRange_iff (a : Word) : inRange a = true ↔ a.toNat < memSize := by simp [inRange]

/-- An aligned address in range has its whole word in range (R53). -/
theorem word_in_range {a : Word} (h : aligned a = true) (hr : inRange a = true) : a.toNat + 3 < memSize := by
  rw [aligned_iff] at h
  rw [inRange_iff] at hr
  unfold memSize at *
  omega

theorem inText_iff (s : State) (a : Word) : s.inText a = true ↔ a.toNat ∈ s.config.text := by
  simp [State.inText]

/-! ## Memory accesses -/

/-- When `MemRead` answers a value (R54). -/
theorem memRead_ok_iff {s : State} {a v : Word} :
    memRead s a = .ok v ↔ aligned a = true ∧ inRange a = true ∧ s.mem.readWord a.toNat = some v := by
  unfold memRead
  cases aligned a <;> cases inRange a <;> cases s.mem.readWord a.toNat <;> simp

/-- When `MemRead` faults, and with which fault (R54, R163). -/
theorem memRead_error_iff {s : State} {a : Word} {f : Fault} :
    memRead s a = .error f ↔
      (aligned a = false ∧ f = .misalignedAccess a) ∨
      (aligned a = true ∧ inRange a = false ∧ f = .addressOutOfRange a) ∨
      (aligned a = true ∧ inRange a = true ∧ s.mem.readWord a.toNat = none ∧ f = .uninitMemRead a) := by
  unfold memRead
  cases aligned a <;> cases inRange a <;> cases s.mem.readWord a.toNat <;> simp [eq_comm]

/-- When `MemWrite` completes, and with which state (R55). -/
theorem memWrite_ok_iff {s t : State} {a v : Word} :
    memWrite s a v = .ok t ↔ aligned a = true ∧ inRange a = true ∧ s.inText a = false ∧
      t = s.storeWord a v := by
  unfold memWrite
  cases aligned a <;> cases inRange a <;> cases s.inText a <;> simp [eq_comm]

/-- When `MemWrite` faults, and with which fault (R55, R163). -/
theorem memWrite_error_iff {s : State} {a v : Word} {f : Fault} :
    memWrite s a v = .error f ↔
      (aligned a = false ∧ f = .misalignedAccess a) ∨
      (aligned a = true ∧ inRange a = false ∧ f = .addressOutOfRange a) ∨
      (aligned a = true ∧ inRange a = true ∧ s.inText a = true ∧ f = .storeToText a) := by
  unfold memWrite
  cases aligned a <;> cases inRange a <;> cases s.inText a <;> simp [eq_comm]

/-- When the fetch answers a word (R25, R56). -/
theorem fetch_ok_iff {s : State} {w : Word} :
    fetch s = .ok w ↔ aligned s.pc = true ∧ inRange s.pc = true ∧ s.inText s.pc = true ∧
      s.mem.readWord s.pc.toNat = some w := by
  unfold fetch
  cases aligned s.pc <;> cases inRange s.pc <;> cases s.inText s.pc <;> cases s.mem.readWord s.pc.toNat <;> simp

/-- When the fetch faults, and with which fault (R25, R56, R163). -/
theorem fetch_error_iff {s : State} {f : Fault} :
    fetch s = .error f ↔
      (aligned s.pc = false ∧ f = .misalignedFetch s.pc) ∨
      (aligned s.pc = true ∧ inRange s.pc = false ∧ f = .addressOutOfRange s.pc) ∨
      (aligned s.pc = true ∧ inRange s.pc = true ∧ s.inText s.pc = false ∧ f = .fetchOutsideText s.pc) ∨
      (aligned s.pc = true ∧ inRange s.pc = true ∧ s.inText s.pc = true ∧ s.mem.readWord s.pc.toNat = none ∧
        f = .uninitMemRead s.pc) := by
  unfold fetch
  cases aligned s.pc <;> cases inRange s.pc <;> cases s.inText s.pc <;> cases s.mem.readWord s.pc.toNat <;>
    simp [eq_comm]

/-! ## CSRs -/

/-- When `CSRRead` completes: an input port with a value at its head (R33). -/
theorem csrRead_done_iff {s t : State} {n : CsrNum} {v : Word} :
    csrRead s n = .done (v, t) ↔ ∃ i rest, csrPort n = .input i ∧ s.inFifo i = v :: rest ∧ t = s.setInFifo i rest := by
  unfold csrRead
  cases csrPort n with
  | input i =>
    simp only [CsrPort.input.injEq]
    constructor
    · intro h
      split at h
      · cases h
      · rename_i w rest e
        cases h
        exact ⟨i, rest, rfl, e, rfl⟩
    · rintro ⟨j, rest, rfl, e, rfl⟩
      simp only [e]
  | output i => simp
  | unsupported => simp

/-- When `CSRRead` stalls: an input port whose FIFO is empty (R31, R33). -/
theorem csrRead_stall_iff {s : State} {n : CsrNum} :
    csrRead s n = .stall ↔ ∃ i, csrPort n = .input i ∧ s.inFifo i = [] := by
  unfold csrRead
  cases csrPort n with
  | input i =>
    simp only [CsrPort.input.injEq, exists_eq_left']
    split <;> simp_all
  | output i => simp
  | unsupported => simp

/-- When `CSRRead` faults, and with which fault (R33). -/
theorem csrRead_fault_iff {s : State} {n : CsrNum} {f : Fault} :
    csrRead s n = .fault f ↔ ((∃ i, csrPort n = .output i) ∧ f = .undefinedCsrAccess n .read) ∨
      (csrPort n = .unsupported ∧ f = .unsupportedCsr n) := by
  unfold csrRead
  cases csrPort n with
  | input i =>
    simp only [reduceCtorEq, exists_const, false_and, or_self, iff_false]
    split <;> simp
  | output i => simp [eq_comm]
  | unsupported => simp [eq_comm]

/-- When `CSRWrite` completes: an output port whose FIFO is ready (R34). -/
theorem csrWrite_done_iff {s t : State} {n : CsrNum} {v : Word} :
    csrWrite s n v = .done t ↔ ∃ i, csrPort n = .output i ∧ s.outReady i = true ∧
      t = s.setOutFifo i (s.outFifo i ++ [v]) := by
  unfold csrWrite
  cases csrPort n with
  | output i =>
    simp only [CsrPort.output.injEq, exists_eq_left']
    cases s.outReady i <;> simp [eq_comm]
  | input i => simp
  | unsupported => simp

/-- When `CSRWrite` stalls: an output port whose FIFO is not ready (R32, R34). -/
theorem csrWrite_stall_iff {s : State} {n : CsrNum} {v : Word} :
    csrWrite s n v = .stall ↔ ∃ i, csrPort n = .output i ∧ s.outReady i = false := by
  unfold csrWrite
  cases csrPort n with
  | output i =>
    simp only [CsrPort.output.injEq, exists_eq_left']
    cases s.outReady i <;> simp
  | input i => simp
  | unsupported => simp

/-- When `CSRWrite` faults, and with which fault (R34). -/
theorem csrWrite_fault_iff {s : State} {n : CsrNum} {v : Word} {f : Fault} :
    csrWrite s n v = .fault f ↔ ((∃ i, csrPort n = .input i) ∧ f = .undefinedCsrAccess n .write) ∨
      (csrPort n = .unsupported ∧ f = .unsupportedCsr n) := by
  unfold csrWrite
  cases csrPort n with
  | output i =>
    simp only [reduceCtorEq, exists_const, false_and, or_self, iff_false]
    split <;> simp
  | input i => simp [eq_comm]
  | unsupported => simp [eq_comm]

/-! ## Depths -/

theorem Depth.holds_succ_of_hasRoom {d : Depth} {n : Nat} (h : d.hasRoom n = true) : d.holds (n + 1) = true := by
  cases d <;> simp_all [Depth.hasRoom, Depth.holds]

theorem Depth.holds_of_le {d : Depth} {n m : Nat} (hle : m ≤ n) (h : d.holds n = true) : d.holds m = true := by
  cases d with
  | unbounded => rfl
  | slots k =>
    simp only [Depth.holds, decide_eq_true_eq] at h ⊢
    omega

/-! ## The manager -/

/-- What a move of the manager can do: append to an input FIFO with room, take the head of an output FIFO, or, when it
is not enabled, nothing (R31, R32). -/
inductive MoveCase (s : State) : ManagerMove → State → Prop where
  | enq (i v) (room : s.inRoom i = true) : MoveCase s (.enq i v) (s.setInFifo i (s.inFifo i ++ [v]))
  | deq (i v rest) (head : s.outFifo i = v :: rest) :
      MoveCase s (.deq i) ((s.setOutFifo i rest).setReceived i (s.receivedFrom i ++ [v]))
  | disabled (m) (off : managerEnabled s m = false) : MoveCase s m s

theorem managerMove_cases (s : State) (m : ManagerMove) : MoveCase s m (managerMove s m) := by
  cases m with
  | enq i v =>
    cases h : s.inRoom i with
    | true => simpa [managerMove, h] using MoveCase.enq i v h
    | false => simpa [managerMove, h] using MoveCase.disabled (.enq i v) h
  | deq i =>
    cases h : s.outFifo i with
    | nil => simpa [managerMove, h] using MoveCase.disabled (.deq i) (by simp [managerEnabled, h])
    | cons v rest => simpa [managerMove, h] using MoveCase.deq i v rest h

/-! ## Instructions -/

/-- The shared write of a destination does what R21 says. -/
theorem writesReg_writeReg (s : State) (rd : Reg) (v : Word) : WritesReg rd v s (s.writeReg rd v) :=
  ⟨fun r => s.readReg_writeReg v r rd, fun r => s.regWritten_writeReg v r rd⟩

/-- Everything an instruction can do when it answers a next state. -/
inductive ExecCase (s : State) : Instr → State → Prop where
  | csrr (rd csr k v rest) (port : csrPort csr = .input k) (head : s.inFifo k = v :: rest) :
      ExecCase s (.csrr rd csr) ((s.setInFifo k rest).writeReg rd v).advance
  | csrrStall (rd csr k) (port : csrPort csr = .input k) (empty : s.inFifo k = []) : ExecCase s (.csrr rd csr) s
  | csrw (csr rs1 k) (port : csrPort csr = .output k) (ready : s.outReady k = true) :
      ExecCase s (.csrw csr rs1) (s.setOutFifo k (s.outFifo k ++ [s.readReg rs1])).advance
  | csrwStall (csr rs1 k) (port : csrPort csr = .output k) (full : s.outReady k = false) : ExecCase s (.csrw csr rs1) s
  | add (rd rs1 rs2) : ExecCase s (.add rd rs1 rs2) (s.writeReg rd (s.readReg rs1 + s.readReg rs2)).advance
  | addi (rd rs1 imm) : ExecCase s (.addi rd rs1 imm) (s.writeReg rd (s.readReg rs1 + imm)).advance
  | mul (rd rs1 rs2) : ExecCase s (.mul rd rs1 rs2) (s.writeReg rd (s.readReg rs1 * s.readReg rs2)).advance
  | lw (rd rs1 imm v) (read : memRead s (effectiveAddress s rs1 imm) = .ok v) :
      ExecCase s (.lw rd rs1 imm) (s.writeReg rd v).advance
  | sw (rs1 rs2 imm) (al : aligned (effectiveAddress s rs1 imm) = true) (rng : inRange (effectiveAddress s rs1 imm) = true)
      (out : s.inText (effectiveAddress s rs1 imm) = false) :
      ExecCase s (.sw rs1 rs2 imm) (s.storeWord (effectiveAddress s rs1 imm) (s.readReg rs2)).advance
  | jal (rd imm) : ExecCase s (.jal rd imm) ((s.writeReg rd (linkAddress s)).setPc (pcTarget s imm))
  | jr (rs1) : ExecCase s (.jr rs1) (s.setPc (s.readReg rs1))
  | bneTaken (rs1 rs2 imm) (ne : s.readReg rs1 ≠ s.readReg rs2) : ExecCase s (.bne rs1 rs2 imm) (s.setPc (pcTarget s imm))
  | bneNot (rs1 rs2 imm) (eq : s.readReg rs1 = s.readReg rs2) : ExecCase s (.bne rs1 rs2 imm) s.advance

theorem exec_next {i : Instr} {s t : State} (h : exec i s = .next t) : ExecCase s i t := by
  cases i with
  | csrr rd csr =>
    simp only [exec, execCsrr] at h
    split at h
    · rename_i v s1 e
      obtain ⟨k, rest, hp, hq, rfl⟩ := csrRead_done_iff.1 e
      cases h
      exact .csrr rd csr k v rest hp hq
    · rename_i e
      obtain ⟨k, hp, hq⟩ := csrRead_stall_iff.1 e
      cases h
      exact .csrrStall rd csr k hp hq
    · cases h
  | csrw csr rs1 =>
    simp only [exec, execCsrw] at h
    split at h
    · rename_i s1 e
      obtain ⟨k, hp, hq, rfl⟩ := csrWrite_done_iff.1 e
      cases h
      exact .csrw csr rs1 k hp hq
    · rename_i e
      obtain ⟨k, hp, hq⟩ := csrWrite_stall_iff.1 e
      cases h
      exact .csrwStall csr rs1 k hp hq
    · cases h
  | add rd rs1 rs2 => cases h; exact .add rd rs1 rs2
  | addi rd rs1 imm => cases h; exact .addi rd rs1 imm
  | mul rd rs1 rs2 => cases h; exact .mul rd rs1 rs2
  | lw rd rs1 imm =>
    simp only [exec, execLw] at h
    split at h
    · rename_i v e
      cases h
      exact .lw rd rs1 imm v e
    · cases h
  | sw rs1 rs2 imm =>
    simp only [exec, execSw] at h
    split at h
    · rename_i s1 e
      obtain ⟨ha, hr, ht, rfl⟩ := memWrite_ok_iff.1 e
      cases h
      exact .sw rs1 rs2 imm ha hr ht
    · cases h
  | jal rd imm => cases h; exact .jal rd imm
  | jr rs1 => cases h; exact .jr rs1
  | bne rs1 rs2 imm =>
    by_cases e : s.readReg rs1 = s.readReg rs2
    · simp [exec, execBne, branchTaken, e] at h
      exact h ▸ .bneNot rs1 rs2 imm e
    · simp [exec, execBne, branchTaken, e] at h
      exact h ▸ .bneTaken rs1 rs2 imm e

/-- No instruction is refused: every arm has a meaning. -/
theorem exec_not_refused (i : Instr) (s : State) (q : Refusal) : exec i s ≠ .refused q := by
  cases i with
  | csrr rd csr => simp only [exec, execCsrr]; split <;> simp
  | csrw csr rs1 => simp only [exec, execCsrw]; split <;> simp
  | lw rd rs1 imm => simp only [exec, execLw]; split <;> simp
  | sw rs1 rs2 imm => simp only [exec, execSw]; split <;> simp
  | bne rs1 rs2 imm => simp only [exec, execBne]; split <;> simp
  | add rd rs1 rs2 => simp [exec, execAdd, completeWith]
  | addi rd rs1 imm => simp [exec, execAddi, completeWith]
  | mul rd rs1 rs2 => simp [exec, execMul, completeWith]
  | jal rd imm => simp [exec, execJal]
  | jr rs1 => simp [exec, execJr]

/-! ## The cycle and the step -/

/-- What a processor step does when the fetch and the decoding succeed (R25). -/
theorem cycle_of_decode {s : State} {w : Word} {i : Instr} (hf : fetch s = .ok w) (hd : decode w = .ok i) :
    cycle s = exec i s := by
  simp [cycle, hf, hd]

/-- Every next state of a processor step is one of an instruction (R25). -/
theorem cycle_next {s t : State} (h : cycle s = .next t) :
    ∃ w i, fetch s = .ok w ∧ decode w = .ok i ∧ exec i s = .next t := by
  unfold cycle at h
  split at h
  · cases h
  · rename_i w hw
    split at h
    · cases h
    · rename_i i hi
      exact ⟨w, i, hw, hi, h⟩

/-- Every next state of a step is one of a processor step or of a move of the manager (R195). -/
theorem step_next {s t : State} (h : step s = .next t) :
    ∃ rest, (∃ m, s.takeTurn = (some m, { s with schedule := rest }) ∧ t = managerMove { s with schedule := rest } m) ∨
      (s.takeTurn = (none, { s with schedule := rest }) ∧ cycle { s with schedule := rest } = .next t) := by
  unfold step event at h
  unfold State.takeTurn at h ⊢
  rcases hs : s.schedule with _ | ⟨_ | m, rest⟩
  · have e : ({ s with schedule := [] } : State) = s := by rw [← hs]
    refine ⟨[], .inr ⟨by simp [e], ?_⟩⟩
    simpa [hs, e] using h
  · exact ⟨rest, .inr ⟨rfl, by simpa [hs] using h⟩⟩
  · refine ⟨rest, .inl ⟨m, rfl, ?_⟩⟩
    simpa [hs, eq_comm] using h

/-! ## Runs -/

theorem run_zero (s : State) : run 0 s = .next s := rfl

theorem run_succ (n : Nat) (s : State) : run (n + 1) s =
    match step s with
    | .next t => run n t
    | .fault f => .fault f
    | .refused q => .refused q := rfl

/-- The induction over a run, once: what every step keeps, every run keeps. -/
theorem run_keeps {P : State → Prop} (hstep : ∀ s t, P s → step s = .next t → P t) {n : Nat} {s t : State}
    (hs : P s) (h : run n s = .next t) : P t := by
  induction n generalizing s with
  | zero => cases h; exact hs
  | succ n ih =>
    rw [run_succ] at h
    split at h
    · rename_i u hu
      exact ih (hstep s u hs hu) h
    · cases h
    · cases h

theorem csrwValues_zero (i : Channel) (s : State) : csrwValues i 0 s = [] := rfl

theorem csrwValues_succ (i : Channel) (n : Nat) {s t : State} (h : step s = .next t) :
    csrwValues i (n + 1) s = csrwValue i s ++ csrwValues i n t := by
  simp [csrwValues, h]

end Sys2Proof.Machine
end

