-- ==== Sys2Proof/Laws/PerInstr.lean ====
section
/-! SUPPORT. Statements about every instruction as syntax, one lemma per constructor.

`EncodeMatchesRow`: the word the encoder writes matches its row of the opcode map (spec/30_encoding.md R92), whatever the
operands. -/

namespace Sys2Proof

/-- The mnemonic of an instruction. -/
def Instr.mnemonic : Instr → Mnemonic
  | .csrr _ _ => .csrr
  | .csrw _ _ => .csrw
  | .add _ _ _ => .add
  | .addi _ _ _ => .addi
  | .mul _ _ _ => .mul
  | .lw _ _ _ => .lw
  | .sw _ _ _ => .sw
  | .jal _ _ => .jal
  | .jr _ => .jr
  | .bne _ _ _ => .bne

end Sys2Proof

namespace Sys2Proof.Laws.EncodeMatchesRow

/-- The decoder finds the instruction's own row for its word. -/
def Statement (i : Instr) : Prop := (rowOf (encode i)).map OpRow.mnemonic = some i.mnemonic

theorem csrr (rd : Reg) (csr : CsrNum) : Statement (.csrr rd csr) := by
  simp [Statement, Instr.mnemonic, rowOf, opcodeMap, OpRow.matches, encode, encodeI_eq, row_csrr]

theorem csrw (csr : CsrNum) (rs1 : Reg) : Statement (.csrw csr rs1) := by
  simp [Statement, Instr.mnemonic, rowOf, opcodeMap, OpRow.matches, encode, encodeI_eq, row_csrr, row_csrw]

theorem add (rd rs1 rs2 : Reg) : Statement (.add rd rs1 rs2) := by
  simp [Statement, Instr.mnemonic, rowOf, opcodeMap, OpRow.matches, encode, row_csrr, row_csrw, row_add]

theorem addi (rd rs1 : Reg) (imm : Word) : Statement (.addi rd rs1 imm) := by
  simp [Statement, Instr.mnemonic, rowOf, opcodeMap, OpRow.matches, encode, encodeI_eq, row_csrr, row_csrw,
    row_add, row_addi]

theorem mul (rd rs1 rs2 : Reg) : Statement (.mul rd rs1 rs2) := by
  simp [Statement, Instr.mnemonic, rowOf, opcodeMap, OpRow.matches, encode, row_csrr, row_csrw, row_add,
    row_addi, row_mul]

theorem lw (rd rs1 : Reg) (imm : Word) : Statement (.lw rd rs1 imm) := by
  simp [Statement, Instr.mnemonic, rowOf, opcodeMap, OpRow.matches, encode, encodeI_eq, row_csrr, row_csrw,
    row_add, row_addi, row_mul, row_lw]

theorem sw (rs1 rs2 : Reg) (imm : Word) : Statement (.sw rs1 rs2 imm) := by
  simp [Statement, Instr.mnemonic, rowOf, opcodeMap, OpRow.matches, encode, encodeS_eq, row_csrr, row_csrw,
    row_add, row_addi, row_mul, row_lw, row_sw]

theorem jal (rd : Reg) (imm : Word) : Statement (.jal rd imm) := by
  simp [Statement, Instr.mnemonic, rowOf, opcodeMap, OpRow.matches, encode, encodeU_eq, row_csrr, row_csrw,
    row_add, row_addi, row_mul, row_lw, row_sw, row_jal]

theorem jr (rs1 : Reg) : Statement (.jr rs1) := by
  simp [Statement, Instr.mnemonic, rowOf, opcodeMap, OpRow.matches, encode, encodeI_eq, row_csrr, row_csrw,
    row_add, row_addi, row_mul, row_lw, row_sw, row_jal, row_jr]

theorem bne (rs1 rs2 : Reg) (imm : Word) : Statement (.bne rs1 rs2 imm) := by
  simp [Statement, Instr.mnemonic, rowOf, opcodeMap, OpRow.matches, encode, encodeS_eq, row_csrr, row_csrw,
    row_add, row_addi, row_mul, row_lw, row_sw, row_jal, row_jr, row_bne]

end Sys2Proof.Laws.EncodeMatchesRow
end

