-- ==== Sys2Proof/Tests/Slice0.lean ====
section
/-! SUPPORT. The model's own tests, and for every obligation with hypotheses a concrete state and operands that meet them.

Expected values are those of spec/95_test_vectors.md (the table or the vector `V<n>` is named with each test) or are computed
by hand from the rule named with the test. A `test_` theorem checks a result, a `witness_` theorem shows that hypotheses
can be met, clause by clause where a statement has several. -/

namespace Sys2Proof.Tests

open Sys2Proof.Machine

/-! ## Helpers -/

/-- The next state of an outcome, if it is one. -/
def next? : Result → Option State
  | .next t => some t
  | _ => none

/-- The fault of an outcome, if it is one. -/
def fault? : Result → Option Fault
  | .fault f => some f
  | _ => none

/-- Reset, with the `pc` at `pc` and the word `w` there as the program. -/
def at_ (pc w : Word) : State := ({ State.reset with pc := pc } : State).withFetchWord 32 w.toNat

/-- A word of data placed in memory from outside, as `MEM_INIT` does. -/
def withData (s : State) (a : Nat) (v : Word) : State := { s with mem := s.mem.writeWord a v }

/-- A machine whose program is `nop` at 0 and `jal x0, 0` at 4: table 2.8. -/
def fetchState (pc : Word) : State :=
  { State.launch { Config.initial with text := [0, 4] } ((Memory.writeWord [] 0 0x00000013#32).writeWord 4 0x0000006f#32)
    (Vector.replicate 31 0#32) with pc := pc }

/-- The depths of one slot per output FIFO. -/
def oneSlot : Vector Depth 3 := Vector.replicate 3 (.slots 1)

/-! ## WellFormed: each check refuses an ill-formed term -/

theorem test_wf_addi_above : (Instr.addi 1#5 0#5 2048#32).wellFormed = false := by decide
theorem test_wf_addi_below : (Instr.addi 1#5 0#5 (-2049#32)).wellFormed = false := by decide
theorem test_wf_lw_above : (Instr.lw 1#5 0#5 2048#32).wellFormed = false := by decide
theorem test_wf_sw_below : (Instr.sw 1#5 0#5 (-2049#32)).wellFormed = false := by decide
theorem test_wf_jal_odd : (Instr.jal 1#5 1#32).wellFormed = false := by decide
theorem test_wf_jal_above : (Instr.jal 1#5 0x00100000#32).wellFormed = false := by decide
theorem test_wf_jal_below : (Instr.jal 1#5 0xffeffffe#32).wellFormed = false := by decide
theorem test_wf_bne_odd : (Instr.bne 1#5 2#5 3#32).wellFormed = false := by decide
theorem test_wf_bne_above : (Instr.bne 1#5 2#5 4096#32).wellFormed = false := by decide
theorem test_wf_bne_below : (Instr.bne 1#5 2#5 (-4098#32)).wellFormed = false := by decide

/-- The extremes of R91 are accepted. -/
theorem test_wf_extremes : ∀ i ∈ [Instr.addi 31#5 31#5 0x7ff#32, .addi 0#5 0#5 0xfffff800#32, .lw 1#5 2#5 0xfffff800#32,
    .sw 1#5 2#5 0x7ff#32, .jal 1#5 0x000ffffe#32, .jal 1#5 0xfff00000#32, .bne 1#5 2#5 0xffe#32, .bne 1#5 2#5 0xfffff000#32,
    .csrr 31#5 0xfff#12, .csrw 0#12 31#5, .add 31#5 31#5 31#5, .mul 0#5 0#5 0#5, .jr 31#5], i.wellFormed = true := by decide

/-! ## Decode and encode: words of table 2.1 written out bit by bit from the figures of table T1 -/

/-- Decoding gives the instruction and encoding gives the word. -/
def Stands (w : Word) (i : Instr) : Prop := (decode w).toOption = some i ∧ encode i = w

theorem test_word_csrr : Stands 0b111111000010_00000_010_00101_1110011#32 (.csrr 5#5 0xfc2#12) := by unfold Stands; decide
theorem test_word_csrw : Stands 0b011111000100_11111_001_00000_1110011#32 (.csrw 0x7c4#12 31#5) := by unfold Stands; decide
theorem test_word_add : Stands 0b0000000_00010_00001_000_00011_0110011#32 (.add 3#5 1#5 2#5) := by unfold Stands; decide
theorem test_word_addi : Stands 0b100000000000_00001_000_00010_0010011#32 (.addi 2#5 1#5 0xfffff800#32) := by
  unfold Stands; decide
theorem test_word_mul : Stands 0b0000001_00010_00001_000_00011_0110011#32 (.mul 3#5 1#5 2#5) := by unfold Stands; decide
theorem test_word_lw : Stands 0b111111111100_00010_010_00101_0000011#32 (.lw 5#5 2#5 0xfffffffc#32) := by unfold Stands; decide
theorem test_word_sw : Stands 0b0111111_00111_00011_010_11111_0100011#32 (.sw 3#5 7#5 0x7ff#32) := by unfold Stands; decide
theorem test_word_jal : Stands 0b0_0000000000_1_00000000_00001_1101111#32 (.jal 1#5 0x800#32) := by unfold Stands; decide
theorem test_word_jr : Stands 0b000000000000_11111_000_00000_1100111#32 (.jr 31#5) := by unfold Stands; decide
theorem test_word_bne : Stands 0b1_111111_00000_00001_001_1100_1_1100011#32 (.bne 1#5 0#5 0xfffffff8#32) := by
  unfold Stands; decide

/-- The extremes of the scattered immediates (table 2.1). -/
theorem test_word_extremes : Stands 0x7ffff0ef#32 (.jal 1#5 0x000ffffe#32) ∧ Stands 0x800000ef#32 (.jal 1#5 0xfff00000#32) ∧
    Stands 0x000010ef#32 (.jal 1#5 0x1000#32) ∧ Stands 0x7e209fe3#32 (.bne 1#5 2#5 0xffe#32) ∧
    Stands 0x80209063#32 (.bne 1#5 2#5 0xfffff000#32) ∧ Stands 0x002090e3#32 (.bne 1#5 2#5 0x800#32) ∧
    Stands 0x8071a023#32 (.sw 3#5 7#5 0xfffff800#32) := by unfold Stands; decide

/-- The word matches no row, and is rejected by name. -/
def illegal (w : Word) : Bool :=
  match decode w with
  | .ok _ => false
  | .error e => e == .illegalInstruction w

/-- Words of table 2.2 are no instruction. -/
theorem test_illegal_words : [0x00000000#32, 0xffffffff#32, 0x402081b3#32, 0x022091b3#32, 0x042081b3#32, 0x00109093#32,
    0x0010f093#32, 0x00010283#32, 0x00011283#32, 0x00510023#32, 0x00208463#32, 0x0020c463#32, 0x000080e7#32, 0x00408067#32,
    0x00009067#32].all illegal = true := by decide
theorem test_illegal_words_system : [0xfc20a2f3#32, 0x7c2290f3#32, 0x7c203073#32, 0x7c205073#32, 0x00000073#32, 0x00100073#32,
    0x30200073#32, 0x10500073#32, 0x0ff0000f#32, 0x0000100f#32, 0x000000b7#32, 0x00000097#32, 0x00000001#32].all illegal = true := by
  decide

/-- The bytes of `lw x5, -4(x2)` in memory's order (table 2.1), and a word cut short. -/
theorem test_bytes : encodeBytes (.lw 5#5 2#5 0xfffffffc#32) = [0x83#8, 0x22#8, 0xc1#8, 0xff#8] ∧
    (decodeBytes [0x83#8, 0x22#8, 0xc1#8, 0xff#8, 0x13#8]).toOption = some (.lw 5#5 2#5 0xfffffffc#32, [0x13#8]) ∧
    (decodeBytes [0x13#8, 0#8, 0#8]).toOption = none ∧ decodeTableWord 32 0x00008067 = some (.jr 1#5) := by decide

/-- Two rows of table 2.3: bits 7 and 20 of a word. -/
theorem test_immediate_bits : immS 0x80#32 = 1#32 ∧ immB 0x80#32 = 0x800#32 ∧ immI 0x00100000#32 = 1#32 ∧
    immJ 0x00100000#32 = 0x800#32 := by decide

/-! ## Assembly (R22, R29, R97, R98, R99) -/

theorem test_names : regNamed "x31" = some 31#5 ∧ regNamed "ra" = some 1#5 ∧ regNamed "s1" = some 9#5 ∧ regNamed "a0" = some 10#5 ∧
    regNamed "s2" = some 18#5 ∧ regNamed "fp" = regNamed "s0" ∧ regNamed "t6" = some 31#5 ∧ regNamed "x32" = none ∧
    csrNamed "in2" = some 0xfc4#12 ∧ csrNamed "out1" = some 0x7c3#12 ∧ csrNamed "0xfc2" = none := by decide

/-- The operand order of each line (R97) and the two instances worked in part T3. -/
theorem test_assemble : assemble 0x20#32 (.jal "x1" 0x30#32) = some (.jal 1#5 16#32) ∧
    assemble 0x10#32 (.bne "x1" "x0" 0x8#32) = some (.bne 1#5 0#5 (-8#32)) ∧
    assemble 0#32 (.sw "x5" (-4) "x2") = some (.sw 2#5 5#5 0xfffffffc#32) ∧
    assemble 0#32 (.csrw "out0" "x5") = some (.csrw 0x7c2#12 5#5) ∧ assemble 0#32 (.addi "x1" "x0" 2048) = none ∧
    (assemble 0#32 .nop).map encode = some 0x00000013#32 := by decide

/-! ## One step of each instruction -/

/-- V1. -/
theorem test_csrr : (next? (step ((at_ 0x10#32 0xfc2022f3#32).setInFifo 0 [7#32, 9#32]))).map
    (fun t => (t.readReg 5#5, t.inFifo 0, t.pc)) = some (7#32, [9#32], 0x14#32) := by decide
/-- V3: the dequeue happens although nothing is written. -/
theorem test_csrr_x0 : (next? (step ((at_ 0x100#32 0xfc302073#32).setInFifo 1 [0xaa#32, 0xbb#32]))).map
    (fun t => (t.readReg 0#5, t.inFifo 1, t.pc)) = some (0#32, [0xbb#32], 0x104#32) := by decide
/-- V6. -/
theorem test_csrw : (next? (step (((at_ 0x20#32 0x7c229073#32).writeReg 5#5 0x2a#32).setOutFifo 0 [1#32]))).map
    (fun t => (t.outFifo 0, t.pc)) = some ([1#32, 0x2a#32], 0x24#32) := by decide
/-- V7, with every output FIFO of one slot: a stall leaves the `pc`. -/
theorem test_csrw_stall : (next? (step ((withOutDepth ((at_ 0x20#32 0x7c229073#32).writeReg 5#5 0x2a#32) oneSlot).setOutFifo 0
    [1#32]))).map (fun t => (t.outFifo 0, t.pc)) = some ([1#32], 0x20#32) := by decide
/-- V23. -/
theorem test_add_wraps : (next? (step (((at_ 0x100#32 0x002081b3#32).writeReg 1#5 0x80000000#32).writeReg 2#5
    0x80000000#32))).map (fun t => (t.readReg 3#5, t.pc)) = some (0#32, 0x104#32) := by decide
/-- V24: source and destination are one register. -/
theorem test_add_same : (next? (step ((at_ 0x100#32 0x005282b3#32).writeReg 5#5 0x40000001#32))).map (·.readReg 5#5) =
    some 0x80000002#32 := by decide
/-- V32. -/
theorem test_addi_negative : (next? (step ((at_ 0x100#32 0x80008113#32).writeReg 1#5 0x80000000#32))).map
    (fun t => (t.readReg 2#5, t.pc)) = some (0x7ffff800#32, 0x104#32) := by decide
/-- V31. -/
theorem test_addi_overflows : (next? (step ((at_ 0x100#32 0x7ff08113#32).writeReg 1#5 0x7ffffff0#32))).map (·.readReg 2#5) =
    some 0x800007ef#32 := by decide
/-- V41. -/
theorem test_mul : (next? (step (((at_ 0x100#32 0x022081b3#32).writeReg 1#5 0x12345678#32).writeReg 2#5 0x9abcdef0#32))).map
    (fun t => (t.readReg 3#5, t.pc)) = some (0x242d2080#32, 0x104#32) := by decide
/-- V37: 7 times -3. -/
theorem test_mul_signed : (next? (step (((at_ 0x100#32 0x022081b3#32).writeReg 1#5 7#32).writeReg 2#5 0xfffffffd#32))).map
    (·.readReg 3#5) = some 0xffffffeb#32 := by decide
/-- V51: a negative displacement and the byte order. -/
theorem test_lw : (next? (step (withData ((at_ 0x40#32 0xffc12283#32).writeReg 2#5 0x10c#32) 0x108 0xdeadbeef#32))).map
    (fun t => (t.readReg 5#5, t.mem.read 0x108, t.pc)) = some (0xdeadbeef#32, some 0xef#8, 0x44#32) := by decide
/-- V64: the address wraps into range. -/
theorem test_lw_wraps : (next? (step (withData ((at_ 0x40#32 0x00412283#32).writeReg 2#5 0xfffffffc#32) 0 0x13#32))).map
    (·.readReg 5#5) = some 0x13#32 := by decide
/-- V65. -/
theorem test_sw : (next? (step (((at_ 0x40#32 0xfe512e23#32).writeReg 2#5 0x200#32).writeReg 5#5 0x11223344#32))).map
    (fun t => (t.mem.read 0x1fc, t.mem.read 0x1ff, t.mem.read 0x200, t.pc)) =
    some (some 0x44#8, some 0x11#8, none, 0x44#32) := by decide
/-- V71: the highest word of memory. -/
theorem test_sw_top : (next? (step (((at_ 0x40#32 0x00512023#32).writeReg 2#5 0xffffc#32).writeReg 5#5 0xa5a5a5a5#32))).map
    (fun t => (t.mem.read 0xfffff, t.mem.read 0x100000)) = some (some 0xa5#8, none) := by decide
/-- V80. -/
theorem test_jal : (next? (step (at_ 0x20#32 0x010000ef#32))).map (fun t => (t.readReg 1#5, t.pc)) =
    some (0x24#32, 0x30#32) := by decide
/-- V85: the target wraps. -/
theorem test_jal_wraps : (next? (step (at_ 0xffffc#32 0x800000ef#32))).map (fun t => (t.readReg 1#5, t.pc)) =
    some (0x100000#32, 0xfffffffc#32) := by decide
/-- V90. -/
theorem test_jr : (next? (step ((at_ 0x38#32 0x00008067#32).writeReg 1#5 0x24#32))).map (·.pc) = some 0x24#32 := by decide
/-- V93: no bit is cleared. -/
theorem test_jr_odd : (next? (step ((at_ 0x38#32 0x00008067#32).writeReg 1#5 0x25#32))).map (·.pc) = some 0x25#32 := by decide
/-- V96. -/
theorem test_bne_taken : (next? (step ((at_ 0x10#32 0xfe009ce3#32).writeReg 1#5 3#32))).map (·.pc) = some 0x8#32 := by decide
/-- V106: not taken, so the misaligned target does not matter. -/
theorem test_bne_not_taken : (next? (step (((at_ 0x10#32 0x00209163#32).writeReg 1#5 2#32).writeReg 2#5 2#32))).map (·.pc) =
    some 0x14#32 := by decide

/-! ## Fetch (table 2.8) and faults -/

/-- V120 and V121. -/
theorem test_fetch : (next? (step (fetchState 0#32))).map (·.pc) = some 4#32 ∧
    (next? (step (fetchState 4#32))).map (·.pc) = some 4#32 := by decide
/-- V122, V123, V125, V126, V127, V129. -/
theorem test_fetch_faults : fault? (step (fetchState 8#32)) = some (.fetchOutsideText 8#32) ∧
    fault? (step (fetchState 2#32)) = some (.misalignedFetch 2#32) ∧
    fault? (step (fetchState 0xffffc#32)) = some (.fetchOutsideText 0xffffc#32) ∧
    fault? (step (fetchState 0x100000#32)) = some (.addressOutOfRange 0x100000#32) ∧
    fault? (step (fetchState 0xfffffffc#32)) = some (.addressOutOfRange 0xfffffffc#32) ∧
    fault? (step (fetchState 0x100002#32)) = some (.misalignedFetch 0x100002#32) := by decide

/-- Log entry 4: from reset with nothing placed, the first fetch is outside `TEXT`. -/
theorem test_reset_has_no_program : fault? (step State.reset) = some (.fetchOutsideText 0#32) := by decide

/-- The first word placed after reset runs first, also before a waiting manager move (log entry 28). -/
theorem test_placed_word : (next? (step (State.reset.withFetchWord 32 0x00500093))).map (·.readReg 1#5) = some 5#32 ∧
    (next? (step (({ State.reset with schedule := [.manager (.deq 0)] } : State).withFetchWord 32 0x00500093))).map
      (fun t => (t.readReg 1#5, t.schedule)) = some (5#32, [.manager (.deq 0)]) := by decide

/-- V27, V28, V75: where R23 would raise `UninitRegRead`, `unwrittenSource` names the register it would report. -/
theorem test_unwritten_source : unwrittenSource (.add 3#5 1#5 2#5) (State.reset.writeReg 1#5 1#32) = some 2#5 ∧
    unwrittenSource (.add 3#5 1#5 2#5) State.reset = some 1#5 ∧
    unwrittenSource (.sw 2#5 5#5 0#32) (State.reset.writeReg 2#5 0x200#32) = some 5#5 ∧
    unwrittenSource (.csrw 0x7c2#12 0#5) State.reset = none := by decide

/-- The end of a run, both examples of R197. -/
theorem test_ended : ended (endsAtPc 4#32) (fetchState 4#32) = true ∧
    ended (endsWithResults 1 1) ((fetchState 0#32).setReceived 1 [9#32]) = true ∧
    ended (endsWithResults 1 1) (fetchState 0#32) = false := by decide

/-! ## Memory and reset -/

theorem test_memory_canonical : Memory.wf State.reset.mem ∧ Memory.wf (fetchState 0#32).mem ∧
    Memory.writeWord (Memory.writeWord [] 8 1#32) 4 2#32 = Memory.writeWord (Memory.writeWord [] 4 2#32) 8 1#32 := by decide

theorem reset_inv : Inv State.reset :=
  ⟨by decide, by unfold TextWf; decide, by unfold DepthsPositive; decide, by decide, by decide⟩

/-! ## Witnesses: the hypotheses of each obligation are met -/

/-- A machine with two manager moves to come, one slot in each output FIFO, a value in `in0` and one in `out1`. -/
def busyState : State :=
  let s := (withOutDepth (fetchState 0#32) oneSlot).setInFifo 0 [7#32]
  { s.setOutFifo 1 [5#32] with schedule := [.manager (.deq 1), .processor, .manager (.enq 0 8#32)] }

theorem busy_inv : Inv busyState :=
  ⟨by decide, by unfold TextWf; decide, by unfold DepthsPositive; decide, by decide, by decide⟩

theorem fetchState_inv (pc : Word) : Inv (fetchState pc) := by
  refine ⟨?_, ?_, ?_, ?_, ?_⟩
  · show Memory.wf (fetchState 0#32).mem; decide
  · show TextWf (fetchState 0#32).config.text (fetchState 0#32).mem; unfold TextWf; decide
  · show DepthsPositive (fetchState 0#32).config; unfold DepthsPositive; decide
  · show ∀ i : Channel, (fetchState 0#32).config.inDepth[i].holds ((fetchState 0#32).inFifo i).length = true; decide
  · show ∀ i : Channel, (fetchState 0#32).config.outDepth[i].holds ((fetchState 0#32).outFifo i).length = true; decide

/-- DecodeOfEncode: a well-formed instruction of each immediate type at its lowest value. -/
theorem witness_DecodeOfEncode : (Instr.addi 31#5 31#5 0xfffff800#32).wellFormed = true ∧
    (Instr.sw 1#5 2#5 0xfffff800#32).wellFormed = true ∧ (Instr.jal 1#5 0xfff00000#32).wellFormed = true ∧
    (Instr.bne 1#5 2#5 0xfffff000#32).wellFormed = true := by decide

/-- EncodeOfDecode. -/
theorem witness_EncodeOfDecode : decode 0x800000ef#32 = .ok (.jal 1#5 0xfff00000#32) := rfl

/-- DecodesByTheFixedFieldsOfItsRow: a word on each side of the equivalence, ADD beside MUL. -/
theorem witness_DecodesByTheFixedFieldsOfItsRow : decode 0x002081b3#32 = .ok (readOperands .add 0x002081b3#32) ∧
    fieldFunct7 0x022081b3#32 ≠ 0b0000000#7 := ⟨rfl, by decide⟩

/-- OpcodeRowsAreDisjoint. -/
theorem witness_OpcodeRowsAreDisjoint : ∃ r ∈ opcodeMap, r.matches 0x002081b3#32 = true := by decide

/-- AssemblerEncodesTheDistance: both clauses, at the ends of the ranges. -/
theorem witness_AssemblerEncodesTheDistance : regNamed "ra" = some 1#5 ∧ regNamed "x0" = some 0#5 ∧
    ((0x00000010#32 - 0x00100010#32 : Word).toInt % 2 = 0 ∧ -1048576 ≤ (0x00000010#32 - 0x00100010#32 : Word).toInt ∧
      (0x00000010#32 - 0x00100010#32 : Word).toInt ≤ 1048574) ∧
    ((0x0000100e#32 - 0x00000010#32 : Word).toInt % 2 = 0 ∧ -4096 ≤ (0x0000100e#32 - 0x00000010#32 : Word).toInt ∧
      (0x0000100e#32 - 0x00000010#32 : Word).toInt ≤ 4094) := by decide

/-- StepRunsTheDecodedInstruction: with and without a turn on the schedule. -/
theorem witness_StepRunsTheDecodedInstruction :
    ProcessorTurn (fetchState 4#32) (fetchState 4#32) ∧
    ProcessorTurn { fetchState 4#32 with schedule := [.processor] } (fetchState 4#32) ∧
    (fetchState 4#32).pc.toNat % 4 = 0 ∧ (fetchState 4#32).pc.toNat ≤ 0x000fffff ∧
    (fetchState 4#32).pc.toNat ∈ (fetchState 4#32).config.text ∧ (fetchState 4#32).mem.readWord 4 = some 0x0000006f#32 ∧
    decode 0x0000006f#32 = .ok (.jal 0#5 0#32) :=
  ⟨.inl ⟨rfl, rfl⟩, .inr ⟨[], rfl, rfl⟩, by decide, by decide, by decide, by decide, rfl⟩

/-- FetchAndDecodeFaults: each clause at a boundary; the fourth in a machine whose program has no bytes, the last at a word of
zeros. -/
theorem witness_FetchAndDecodeFaults :
    ProcessorTurn (fetchState 1#32) (fetchState 1#32) ∧ (fetchState 1#32).pc.toNat % 4 ≠ 0 ∧
    ((fetchState 0x100000#32).pc.toNat % 4 = 0 ∧ 0x000fffff < (fetchState 0x100000#32).pc.toNat) ∧
    ((fetchState 8#32).pc.toNat % 4 = 0 ∧ (fetchState 8#32).pc.toNat ≤ 0x000fffff ∧
      (fetchState 8#32).pc.toNat ∉ (fetchState 8#32).config.text) ∧
    (0 ∈ ({ fetchState 0#32 with mem := [] } : State).config.text ∧
      ({ fetchState 0#32 with mem := [] } : State).mem.readWord 0 = none) ∧
    ((at_ 0xffffc#32 0#32).pc.toNat ∈ (at_ 0xffffc#32 0#32).config.text ∧
      (at_ 0xffffc#32 0#32).mem.readWord 0xffffc = some 0#32 ∧ ∀ r ∈ opcodeMap, r.matches 0#32 = false) :=
  ⟨.inl ⟨rfl, rfl⟩, by decide, by decide, by decide, by decide, by decide⟩

/-- FetchFindsAValueInText. -/
theorem witness_FetchFindsAValueInText : Inv (fetchState 4#32) ∧ (fetchState 4#32).pc.toNat ∈ (fetchState 4#32).config.text :=
  ⟨fetchState_inv _, by decide⟩

/-- PlacedWordIsRun. -/
theorem witness_PlacedWordIsRun : decode 0x00500093#32 = .ok (.addi 1#5 0#5 5#32) := rfl

/-- CsrrDequeues. -/
theorem witness_CsrrDequeues : (0xfc2#12, (0 : Channel)) ∈ inCsrs ∧ busyState.inFifo 0 = 7#32 :: [] := by decide

/-- CsrrStallsOrFaults: an empty `in2`, `out0`, and numbers beside the six. -/
theorem witness_CsrrStallsOrFaults : ((0xfc4#12, (2 : Channel)) ∈ inCsrs ∧ busyState.inFifo 2 = []) ∧
    (0x7c2#12, (0 : Channel)) ∈ outCsrs ∧
    ((∀ i : Channel, (0xfc5#12, i) ∉ inCsrs) ∧ ∀ i : Channel, (0xfc5#12, i) ∉ outCsrs) := by decide

/-- CsrwEnqueues: an empty FIFO of one slot, and an unbounded one. -/
theorem witness_CsrwEnqueues : ((0x7c2#12, (0 : Channel)) ∈ outCsrs ∧ busyState.config.outDepth[(0 : Channel)] = .slots 1 ∧
    (busyState.outFifo 0).length < 1) ∧ (fetchState 0#32).config.outDepth[(0 : Channel)] = .unbounded := by decide

/-- CsrwStallsOrFaults: a full `out1`, `in0`, and numbers beside the six. -/
theorem witness_CsrwStallsOrFaults : ((0x7c3#12, (1 : Channel)) ∈ outCsrs ∧
      busyState.config.outDepth[(1 : Channel)] = .slots 1 ∧ 1 ≤ (busyState.outFifo 1).length) ∧
    (0xfc2#12, (0 : Channel)) ∈ inCsrs ∧
    ((∀ i : Channel, (0x7c1#12, i) ∉ inCsrs) ∧ ∀ i : Channel, (0x7c1#12, i) ∉ outCsrs) := by decide

/-- A machine with a word of data at the top of memory and `x2` pointing at it. -/
def topState : State := withData ((fetchState 0#32).writeReg 2#5 0xffffc#32) 0xffffc 0x12345678#32

/-- LwResult: the highest address. -/
theorem witness_LwResult : (effectiveAddress topState 2#5 0#32).toNat % 4 = 0 ∧
    (effectiveAddress topState 2#5 0#32).toNat ≤ 0x000fffff ∧ topState.mem.read 0xffffc = some 0x78#8 ∧
    topState.mem.read 0xffffd = some 0x56#8 ∧ topState.mem.read 0xffffe = some 0x34#8 ∧
    topState.mem.read 0xfffff = some 0x12#8 := by decide

/-- LwFaults: misaligned below the top, just above it, and an address without a value just below it. -/
theorem witness_LwFaults : (effectiveAddress topState 2#5 1#32).toNat % 4 ≠ 0 ∧
    ((effectiveAddress topState 2#5 4#32).toNat % 4 = 0 ∧ 0x000fffff < (effectiveAddress topState 2#5 4#32).toNat) ∧
    ((effectiveAddress topState 2#5 (-4#32)).toNat % 4 = 0 ∧ (effectiveAddress topState 2#5 (-4#32)).toNat ≤ 0x000fffff ∧
      topState.mem.read ((effectiveAddress topState 2#5 (-4#32)).toNat + 3) = none) := by decide

/-- SwResult: the highest address. -/
theorem witness_SwResult : (effectiveAddress topState 2#5 0#32).toNat % 4 = 0 ∧
    (effectiveAddress topState 2#5 0#32).toNat ≤ 0x000fffff ∧
    (effectiveAddress topState 2#5 0#32).toNat ∉ topState.config.text := by decide

/-- SwFaults: misaligned inside a word of `TEXT`, just above the top, and a word of `TEXT`. -/
theorem witness_SwFaults : (effectiveAddress topState 0#5 2#32).toNat % 4 ≠ 0 ∧
    ((effectiveAddress topState 2#5 4#32).toNat % 4 = 0 ∧ 0x000fffff < (effectiveAddress topState 2#5 4#32).toNat) ∧
    ((effectiveAddress topState 0#5 4#32).toNat % 4 = 0 ∧ (effectiveAddress topState 0#5 4#32).toNat ≤ 0x000fffff ∧
      (effectiveAddress topState 0#5 4#32).toNat ∈ topState.config.text) := by decide

/-- EffectiveAddressWraps: the last clause at the displacement -1. -/
theorem witness_EffectiveAddressWraps : fitsImm12 0xffffffff#32 = true ∧ (0xffffffff#32 : Word).toInt < 0 := by decide

/-- LoadAfterStore: the same word addressed through another register. -/
theorem witness_LoadAfterStore : ∃ t, exec (.sw 2#5 0#5 0#32) (topState.writeReg 3#5 0x100000#32) = .next t ∧
    effectiveAddress t 3#5 (-4#32) = effectiveAddress (topState.writeReg 3#5 0x100000#32) 2#5 0#32 := ⟨_, rfl, by decide⟩

/-- BneResult: registers that differ in bit 31, and a register compared with itself. -/
theorem witness_BneResult : (∃ k, k < 32 ∧
      ((fetchState 0#32).writeReg 1#5 0x80000000#32 |>.readReg 1#5).getLsbD k ≠
        ((fetchState 0#32).writeReg 1#5 0x80000000#32 |>.readReg 0#5).getLsbD k) ∧
    ∀ k, k < 32 → (topState.readReg 2#5).getLsbD k = (topState.readReg 2#5).getLsbD k :=
  ⟨⟨31, by decide, by decide⟩, fun _ _ => rfl⟩

/-- BadTargetFaultsAtTheNextFetch: each instruction, each clause at a boundary. -/
theorem witness_BadTargetFaultsAtTheNextFetch :
    (∃ t, exec (.jal 1#5 2#32) (fetchState 4#32) = .next t ∧ ProcessorTurn t t ∧ t.pc.toNat % 4 ≠ 0) ∧
    (∃ t, exec (.jr 3#5) ((fetchState 4#32).writeReg 3#5 0x100000#32) = .next t ∧ ProcessorTurn t t ∧ t.pc.toNat % 4 = 0 ∧
      0x000fffff < t.pc.toNat) ∧
    (∃ t, exec (.bne 2#5 0#5 4#32) { topState with pc := 4#32 } = .next t ∧ ProcessorTurn t t ∧ t.pc.toNat % 4 = 0 ∧
      t.pc.toNat ≤ 0x000fffff ∧ t.pc.toNat ∉ topState.config.text) :=
  ⟨⟨_, rfl, .inl ⟨rfl, rfl⟩, by decide⟩, ⟨_, rfl, .inl ⟨rfl, rfl⟩, by decide⟩, ⟨_, rfl, .inl ⟨rfl, rfl⟩, by decide⟩⟩

/-- X0IsHardwired: each pair of instructions completes from one state. -/
theorem witness_X0IsHardwired :
    (∃ t u, exec (.csrr 0#5 0xfc2#12) busyState = .next t ∧ exec (.csrr 7#5 0xfc2#12) busyState = .next u) ∧
    (∃ t u, exec (.add 0#5 2#5 2#5) topState = .next t ∧ exec (.add 7#5 2#5 2#5) topState = .next u) ∧
    (∃ t u, exec (.addi 0#5 2#5 1#32) topState = .next t ∧ exec (.addi 7#5 2#5 1#32) topState = .next u) ∧
    (∃ t u, exec (.mul 0#5 2#5 2#5) topState = .next t ∧ exec (.mul 7#5 2#5 2#5) topState = .next u) ∧
    (∃ t u, exec (.lw 0#5 2#5 0#32) topState = .next t ∧ exec (.lw 7#5 2#5 0#32) topState = .next u) ∧
    (∃ t u, exec (.jal 0#5 8#32) topState = .next t ∧ exec (.jal 7#5 8#32) topState = .next u) :=
  ⟨⟨_, _, rfl, rfl⟩, ⟨_, _, rfl, rfl⟩, ⟨_, _, rfl, rfl⟩, ⟨_, _, rfl, rfl⟩, ⟨_, _, rfl, rfl⟩, ⟨_, _, rfl, rfl⟩⟩

/-- InstructionFrame: a form that stores and one that does not; a register that is no destination, a byte just below the
store, a FIFO the instruction does not name. -/
theorem witness_InstructionFrame :
    (∃ t, exec (.sw 2#5 2#5 0#32) topState = .next t) ∧ storeAddress (.sw 2#5 2#5 0#32) topState = some 0xffffc#32 ∧
    (Instr.sw 2#5 2#5 0#32).dest ≠ some 2#5 ∧ 0xffffb < (0xffffc#32 : Word).toNat ∧
    (∃ t, exec (.csrr 1#5 0xfc2#12) busyState = .next t) ∧ storeAddress (.csrr 1#5 0xfc2#12) busyState = none ∧
    (0xfc2#12, (1 : Channel)) ∉ inCsrs := by
  exact ⟨⟨_, rfl⟩, by decide, by decide, by decide, ⟨_, rfl⟩, by decide, by decide⟩

/-- NextPcOfEveryInstruction: every instruction completes somewhere, and CSRR and CSRW also stall somewhere. -/
theorem witness_NextPcOfEveryInstruction :
    (∃ t, exec (.csrr 1#5 0xfc2#12) busyState = .next t) ∧ (∃ t, exec (.csrr 1#5 0xfc3#12) busyState = .next t) ∧
    (∃ t, exec (.csrw 0x7c2#12 1#5) busyState = .next t) ∧ (∃ t, exec (.csrw 0x7c3#12 1#5) busyState = .next t) ∧
    (∃ t, exec (.add 1#5 2#5 3#5) topState = .next t) ∧ (∃ t, exec (.addi 1#5 2#5 3#32) topState = .next t) ∧
    (∃ t, exec (.mul 1#5 2#5 3#5) topState = .next t) ∧ (∃ t, exec (.lw 1#5 2#5 0#32) topState = .next t) ∧
    (∃ t, exec (.sw 2#5 1#5 0#32) topState = .next t) ∧ (∃ t, exec (.jal 1#5 8#32) topState = .next t) ∧
    (∃ t, exec (.jr 2#5) topState = .next t) ∧ (∃ t, exec (.bne 1#5 2#5 8#32) topState = .next t) ∧
    (∃ t, exec (.bne 2#5 2#5 8#32) topState = .next t) :=
  ⟨⟨_, rfl⟩, ⟨_, rfl⟩, ⟨_, rfl⟩, ⟨_, rfl⟩, ⟨_, rfl⟩, ⟨_, rfl⟩, ⟨_, rfl⟩, ⟨_, rfl⟩, ⟨_, rfl⟩, ⟨_, rfl⟩, ⟨_, rfl⟩, ⟨_, rfl⟩, ⟨_, rfl⟩⟩

/-- FaultsOfEachInstruction: each fault `exec` can end in is reached. -/
theorem witness_FaultsOfEachInstruction :
    fault? (exec (.lw 1#5 2#5 1#32) topState) = some (.misalignedAccess 0xffffd#32) ∧
    fault? (exec (.sw 2#5 1#5 4#32) topState) = some (.addressOutOfRange 0x100000#32) ∧
    fault? (exec (.lw 1#5 0#5 8#32) topState) = some (.uninitMemRead 8#32) ∧
    fault? (exec (.sw 0#5 1#5 4#32) topState) = some (.storeToText 4#32) ∧
    fault? (exec (.csrr 1#5 0x7c2#12) topState) = some (.undefinedCsrAccess 0x7c2#12 .read) ∧
    fault? (exec (.csrw 0xfc2#12 1#5) topState) = some (.undefinedCsrAccess 0xfc2#12 .write) ∧
    fault? (exec (.csrr 1#5 0x300#12) topState) = some (.unsupportedCsr 0x300#12) ∧
    fault? (exec (.csrw 0x000#12 1#5) topState) = some (.unsupportedCsr 0x000#12) := by decide

/-- ResetStartsAtZero: a program with a word at 0. -/
theorem witness_ResetStartsAtZero : 0 ∈ (fetchState 0#32).config.text ∧
    (fetchState 0#32).mem.readWord 0 = some 0x00000013#32 ∧ decode 0x00000013#32 = .ok Instr.nop :=
  ⟨by decide, by decide, rfl⟩

/-- LaunchMeetsTheInvariant. -/
theorem witness_LaunchMeetsTheInvariant : Memory.wf busyState.mem ∧ TextWf busyState.config.text busyState.mem ∧
    DepthsPositive busyState.config := ⟨busy_inv.mem, busy_inv.text, busy_inv.depths⟩

/-- StepKeepsTheInvariant: a manager's move and a processor's step. -/
theorem witness_StepKeepsTheInvariant : (Inv busyState ∧ ∃ t, step busyState = .next t) ∧
    (Inv (fetchState 0#32) ∧ ∃ t, step (fetchState 0#32) = .next t) :=
  ⟨⟨busy_inv, _, rfl⟩, ⟨fetchState_inv _, _, rfl⟩⟩

/-- ProgramNeverChanges: a run of three events. -/
theorem witness_ProgramNeverChanges : Inv busyState ∧ 4 ∈ busyState.config.text ∧ ∃ t, run 3 busyState = .next t :=
  ⟨busy_inv, by decide, _, rfl⟩

/-- V6's instruction, `csrw out0, x5`, with the manager's dequeue of its value to come. -/
def writingState : State :=
  { (at_ 0x20#32 0x7c229073#32).writeReg 5#5 0x2a#32 with schedule := [.processor, .manager (.deq 0)] }

/-- ManagerReceivesInProgramOrder: a run in which the processor writes a value and the manager receives it. -/
theorem witness_ManagerReceivesInProgramOrder : (∃ t, run 2 writingState = .next t ∧ t.receivedFrom 0 = [0x2a#32]) ∧
    csrwValues 0 2 writingState = [0x2a#32] ∧ csrwValues 1 2 writingState = [] := ⟨⟨_, rfl, by decide⟩, by decide, by decide⟩

/-- CanonicalMemoriesAreEqual: one memory written in two orders. -/
theorem witness_CanonicalMemoriesAreEqual : Memory.wf ((Memory.write [] 8 1#8).write 4 2#8) ∧
    Memory.wf ((Memory.write [] 4 2#8).write 8 1#8) ∧
    ∀ a, ((Memory.write [] 8 1#8).write 4 2#8).read a = ((Memory.write [] 4 2#8).write 8 1#8).read a :=
  ⟨by decide, by decide, fun _ => rfl⟩

/-- UnwrittenRegistersAreNotObserved: two states that differ in `x5`, which nothing has written, about to run `nop`. -/
theorem witness_UnwrittenRegistersAreNotObserved :
    AgreeOnWritten (fetchState 0#32) { fetchState 0#32 with regs := (fetchState 0#32).regs.set 4 9#32 } ∧
    nextInstr (fetchState 0#32) = some Instr.nop ∧ unwrittenSource Instr.nop (fetchState 0#32) = none :=
  ⟨⟨rfl, rfl, rfl, rfl, rfl, rfl, rfl, rfl, rfl, by decide⟩, by decide, by decide⟩

/-- ManagerMoves: a dequeue of a value; of an empty FIFO; an enqueue. -/
theorem witness_ManagerMoves : busyState.schedule = .manager (.deq 1) :: [.processor, .manager (.enq 0 8#32)] ∧
    busyState.outFifo 1 = [5#32] ∧ busyState.outFifo 0 = [] ∧ busyState.inRoom 0 = true ∧
    ({ busyState with schedule := [.manager (.enq 0 8#32)] } : State).schedule = .manager (.enq 0 8#32) :: [] :=
  ⟨rfl, by decide, by decide, by decide, rfl⟩

/-- InputFifosAreFirstInFirstOut and OutputStreamGrowsByCsrwOnly: a step. -/
theorem witness_fifo_steps : (∃ t, step busyState = .next t) ∧
    ∃ t, step ((at_ 0#32 0xfc2022f3#32).setInFifo 0 [7#32]) = .next t ∧ t.inFifo 0 = [] :=
  ⟨⟨_, rfl⟩, ⟨_, rfl, by decide⟩⟩

/-- OutputDepthsDecideOnlyStalls: a CSRW that stalls with one slot and completes unbounded; another instruction; one that
faults. -/
theorem witness_OutputDepthsDecideOnlyStalls :
    (∃ t t', exec (.csrw 0x7c3#12 0#5) busyState = .next t ∧
      exec (.csrw 0x7c3#12 0#5) (withOutDepth busyState (Vector.replicate 3 .unbounded)) = .next t') ∧
    (∃ t t', exec (.add 1#5 2#5 3#5) busyState = .next t ∧ exec (.add 1#5 2#5 3#5) (withOutDepth busyState oneSlot) = .next t') ∧
    exec (.csrr 1#5 0x7c3#12) busyState = .fault (.undefinedCsrAccess 0x7c3#12 .read) :=
  ⟨⟨_, _, rfl, rfl⟩, ⟨_, _, rfl, rfl⟩, rfl⟩

/-- EndlessRunsChangeNothing: the jump, the branch (V101's), a CSRR that waits, a CSRW that waits. -/
theorem witness_EndlessRunsChangeNothing :
    ((fetchState 4#32).schedule = [] ∧ nextInstr (fetchState 4#32) = some (.jal 0#5 0#32)) ∧
    (nextInstr ((at_ 0x10#32 0x00209063#32).writeReg 1#5 1#32) = some (.bne 1#5 2#5 0#32) ∧
      ((at_ 0x10#32 0x00209063#32).writeReg 1#5 1#32).readReg 1#5 ≠
        ((at_ 0x10#32 0x00209063#32).writeReg 1#5 1#32).readReg 2#5) ∧
    (nextInstr (at_ 0#32 0xfc2020f3#32) = some (.csrr 1#5 0xfc2#12) ∧ (at_ 0#32 0xfc2020f3#32).inFifo 0 = []) ∧
    (nextInstr ((withOutDepth (at_ 4#32 0x7c201073#32) oneSlot).setOutFifo 0 [0#32]) = some (.csrw 0x7c2#12 0#5) ∧
      ((withOutDepth (at_ 4#32 0x7c201073#32) oneSlot).setOutFifo 0 [0#32]).outReady 0 = false) := by decide

/-- StallIsLiftedByTheManager. -/
theorem witness_StallIsLiftedByTheManager : DepthsPositive (at_ 0#32 0xfc2020f3#32).config ∧
    nextInstr { at_ 0#32 0xfc2020f3#32 with schedule := [.processor, .manager (.enq 0 9#32), .processor] } =
      some (.csrr 1#5 0xfc2#12) ∧ (at_ 0#32 0xfc2020f3#32).inFifo 0 = [] :=
  ⟨by unfold DepthsPositive; decide, by decide, by decide⟩

end Sys2Proof.Tests
end

section
/-! Proofs of the statements about the state: the turn of the processor, and the state a launch leaves. -/

namespace Sys2Proof.Machine

/-- R195: when the processor's turn is next, the step is a cycle of the processor from the state that turn leaves. -/
theorem step_of_processorTurn {s s1 : State} (h : ProcessorTurn s s1) : step s = cycle s1 := by
  obtain ⟨hs, rfl⟩ | ⟨rest, hs, rfl⟩ := h <;> simp [step, event, State.takeTurn, hs]

section Launch

variable (c : Config) (m : Memory) (x : Vector Word 31)

@[simp] theorem State.launch_pc : (State.launch c m x).pc = 0#32 := rfl
@[simp] theorem State.launch_mem : (State.launch c m x).mem = m := rfl
@[simp] theorem State.launch_config : (State.launch c m x).config = c := rfl
@[simp] theorem State.launch_schedule : (State.launch c m x).schedule = [] := rfl

/-- No manager move waits after a launch: the processor has the first turn. -/
theorem processorTurn_launch : ProcessorTurn (State.launch c m x) (State.launch c m x) :=
  .inl ⟨State.launch_schedule c m x, rfl⟩

variable {c m}

/-- R37: the first fetch after a launch answers the word at bytes 0 to 3. -/
theorem fetch_launch {w : Word} (ht : 0 ∈ c.text) (hw : m.readWord 0 = some w) :
    fetch (State.launch c m x) = .ok w := by
  rw [fetch_ok_iff, aligned_iff, inRange_iff, inText_iff]
  simp [ht, hw, memSize]

end Launch

/-- Settles O35: the `pc` is the reset vector by definition, and the first event is a processor cycle that fetches and
decodes the word at 0. -/
theorem resetStartsAtZero : Obligations.ResetStartsAtZero := by
  unfold Obligations.ResetStartsAtZero
  refine ⟨State.launch_pc _ _ _, fun c m x => ⟨State.launch_pc c m x, fun w i ht hw hd => ?_⟩⟩
  calc step (State.launch c m x)
      = cycle (State.launch c m x) := step_of_processorTurn (processorTurn_launch c m x)
    _ = exec i (State.launch c m x) := cycle_of_decode (fetch_launch x ht hw) hd

end Sys2Proof.Machine
end

section
/-! Proofs of the statements about the encoding: the bits of the four immediates (spec/30_encoding.md R86 to R89), and the
distance the assembler encodes for a target (R98). -/

namespace Sys2Proof

/-! ### The bits of an immediate -/

section ImmediateBits

variable {k : Nat} (hk : k < 32)
include hk

/-- An immediate field's top bit is its sign: the 32-bit value repeats it from its own place upwards. -/
theorem getLsbD_signExtend_word {n : Nat} (x : BitVec (n + 1)) :
    (x.signExtend 32).getLsbD k = if k < n then x.getLsbD k else x.getLsbD n := by
  have hmsb : x.msb = x.getLsbD n := x.msb_eq_getLsbD_last
  rw [BitVec.getLsbD_signExtend, hmsb]
  obtain h | rfl | h := Nat.lt_trichotomy k n
  · simp [hk, h, Nat.lt_succ_of_lt h]
  · simp [hk]
  · simp [hk, h.not_gt, show ¬ k < n + 1 by omega]

variable (w : Word)

theorem getLsbD_immI : (immI w).getLsbD k = if k < 11 then w.getLsbD (20 + k) else w.getLsbD 31 := by
  rw [immI, getLsbD_signExtend_word hk]
  simp only [BitVec.getLsbD_extractLsb']
  grind

theorem getLsbD_immS : (immS w).getLsbD k =
    if k < 5 then w.getLsbD (7 + k) else if k < 11 then w.getLsbD (20 + k) else w.getLsbD 31 := by
  rw [immS, getLsbD_signExtend_word hk]
  simp only [BitVec.getLsbD_append, BitVec.getLsbD_extractLsb']
  grind

theorem getLsbD_immJ : (immJ w).getLsbD k =
    if k < 1 then false else if k < 11 then w.getLsbD (20 + k) else if k < 12 then w.getLsbD 20
    else if k < 20 then w.getLsbD k else w.getLsbD 31 := by
  rw [immJ, getLsbD_signExtend_word hk]
  simp only [BitVec.getLsbD_append, BitVec.getLsbD_extractLsb']
  grind

theorem getLsbD_immB : (immB w).getLsbD k =
    if k < 1 then false else if k < 5 then w.getLsbD (7 + k) else if k < 11 then w.getLsbD (20 + k)
    else if k < 12 then w.getLsbD 7 else w.getLsbD 31 := by
  rw [immB, getLsbD_signExtend_word hk]
  simp only [BitVec.getLsbD_append, BitVec.getLsbD_extractLsb']
  grind

end ImmediateBits

/-- Settles O6: each figure lists the branches of the equation for a bit of its immediate. -/
theorem immediatesBitByBit : Obligations.ImmediatesBitByBit := by
  unfold Obligations.ImmediatesBitByBit
  intro w
  refine ⟨?I, ?S, ?J, ?B⟩
  case I => grind [getLsbD_immI]
  case S => grind [getLsbD_immS]
  case J => grind [getLsbD_immJ]
  case B => grind [getLsbD_immB]

/-! ### The words of JAL and BNE decode -/

/-- The decoder reads the operands of the row it finds (R83). -/
theorem decode_of_rowOf {w : Word} {m : Mnemonic} (h : (rowOf w).map OpRow.mnemonic = some m) :
    decode w = .ok (readOperands m w) := by
  obtain ⟨row, hrow, rfl⟩ := Option.map_eq_some_iff.mp h
  simp only [decode, hrow]

theorem decode_encode_jal {imm : Word} (h : fitsImmJ imm = true) (rd : Reg) :
    decode (encode (.jal rd imm)) = .ok (.jal rd imm) := by
  have hrd : fieldRd (encode (.jal rd imm)) = rd := by simp [encode, encodeU_eq]
  rw [decode_of_rowOf (Laws.EncodeMatchesRow.jal rd imm), Instr.mnemonic, readOperands, hrd, immJ_encode_jal h]

theorem decode_encode_bne {imm : Word} (h : fitsImmB imm = true) (rs1 rs2 : Reg) :
    decode (encode (.bne rs1 rs2 imm)) = .ok (.bne rs1 rs2 imm) := by
  have h1 : fieldRs1 (encode (.bne rs1 rs2 imm)) = rs1 := by simp [encode, encodeS_eq]
  have h2 : fieldRs2 (encode (.bne rs1 rs2 imm)) = rs2 := by simp [encode, encodeS_eq]
  rw [decode_of_rowOf (Laws.EncodeMatchesRow.bne rs1 rs2 imm), Instr.mnemonic, readOperands, h1, h2, immB_encode_bne h]

/-! ### The assembler's distance -/

namespace Machine

variable {pc addr : Word}

theorem asmOffset_of_fits {fits : Word → Bool} (h : fits (addr - pc) = true) :
    asmOffset fits pc addr = some (addr - pc) :=
  if_pos h

theorem assemble_jal {rd : String} {r : Reg} (hr : regNamed rd = some r) (h : fitsImmJ (addr - pc) = true) :
    assemble pc (.jal rd addr) = some (.jal r (addr - pc)) := by
  simp [assemble, hr, asmOffset_of_fits h]

theorem assemble_bne {rs1 rs2 : String} {r₁ r₂ : Reg} (h1 : regNamed rs1 = some r₁) (h2 : regNamed rs2 = some r₂)
    (h : fitsImmB (addr - pc) = true) : assemble pc (.bne rs1 rs2 addr) = some (.bne r₁ r₂ (addr - pc)) := by
  simp [assemble, h1, h2, asmOffset_of_fits h]

/-- Settles O7: the immediate is the distance itself, which the hypotheses put in the range of its type (R91). -/
theorem assemblerEncodesTheDistance : Obligations.AssemblerEncodesTheDistance := by
  unfold Obligations.AssemblerEncodesTheDistance
  constructor
  · intro pc addr rd r hr heven hlo hhi
    have hfits : fitsImmJ (addr - pc) = true := decide_eq_true ⟨hlo, hhi, heven⟩
    exact ⟨addr - pc, assemble_jal hr hfits, add_sub_cancel pc addr, decode_encode_jal hfits r⟩
  · intro pc addr rs1 rs2 r₁ r₂ h1 h2 heven hlo hhi
    have hfits : fitsImmB (addr - pc) = true := decide_eq_true ⟨hlo, hhi, heven⟩
    exact ⟨addr - pc, assemble_bne h1 h2 hfits, add_sub_cancel pc addr, decode_encode_bne hfits r₁ r₂⟩

end Machine

end Sys2Proof
end

section
/-! Proofs of the statements about the decoder: the row it finds is the only one that matches (spec/30_encoding.md R94), and
decoding and encoding undo each other (R82 to R92). -/

namespace Sys2Proof

/-! ### The row a word matches -/

/-- Two rows can match one word only when their patterns agree under both masks. -/
theorem OpRow.patterns_agree {w : Word} {r₁ r₂ : OpRow} (h₁ : r₁.matches w = true) (h₂ : r₂.matches w = true) :
    r₁.pattern &&& r₂.mask = r₂.pattern &&& r₁.mask := by
  simp only [OpRow.matches, beq_iff_eq] at h₁ h₂
  rw [← h₁, ← h₂, BitVec.and_assoc, BitVec.and_assoc, BitVec.and_comm r₁.mask]

/-- Settles O5: no two rows of the map agree under both their masks. -/
theorem opcodeRowsAreDisjoint : Obligations.OpcodeRowsAreDisjoint := by
  unfold Obligations.OpcodeRowsAreDisjoint
  intro w r₁ r₂ m₁ m₂ h₁ h₂
  have apart : ∀ r₁ ∈ opcodeMap, ∀ r₂ ∈ opcodeMap, r₁.pattern &&& r₂.mask = r₂.pattern &&& r₁.mask → r₁ = r₂ := by decide
  exact apart r₁ m₁ r₂ m₂ (OpRow.patterns_agree h₁ h₂)

/-- The decoder finds a row exactly when the word matches it (R94). -/
theorem rowOf_eq_some_iff {w : Word} {row : OpRow} :
    rowOf w = some row ↔ row ∈ opcodeMap ∧ row.matches w = true := by
  constructor
  · intro h
    exact ⟨List.mem_of_find?_eq_some h, List.find?_some (p := fun r : OpRow => r.matches w) h⟩
  · rintro ⟨hmem, hmatch⟩
    obtain ⟨found, hfound⟩ := Option.isSome_iff_exists.mp (List.find?_isSome.mpr ⟨row, hmem, hmatch⟩ :
      (rowOf w).isSome = true)
    have : found = row := opcodeRowsAreDisjoint w found row (List.mem_of_find?_eq_some hfound) hmem
      (List.find?_some (p := fun r : OpRow => r.matches w) hfound) hmatch
    rwa [this] at hfound

/-- When a word decodes, and to what (R83, R92). -/
theorem decode_ok_iff {w : Word} {i : Instr} :
    decode w = .ok i ↔ ∃ row ∈ opcodeMap, row.matches w = true ∧ i = readOperands row.mnemonic w := by
  have hdecode : decode w = .ok i ↔ ∃ row, rowOf w = some row ∧ i = readOperands row.mnemonic w := by
    unfold decode
    cases rowOf w <;> simp [eq_comm]
  simp only [hdecode, rowOf_eq_some_iff, and_assoc]

/-- A word of no row is an illegal instruction (R95). -/
theorem decode_of_no_row {w : Word} (h : ∀ r ∈ opcodeMap, r.matches w = false) :
    decode w = .error (.illegalInstruction w) := by
  have : rowOf w = none := List.find?_eq_none.mpr fun r hr => by simp [h r hr]
  simp only [decode, this]

@[simp] theorem mnemonic_readOperands (m : Mnemonic) (w : Word) : (readOperands m w).mnemonic = m := by
  cases m <;> rfl

/-- A word decodes to the instruction of a mnemonic exactly when it matches the mnemonic's row. -/
theorem decode_readOperands_iff {w : Word} {m : Mnemonic} :
    decode w = .ok (readOperands m w) ↔ ∃ row ∈ opcodeMap, row.matches w = true ∧ row.mnemonic = m := by
  rw [decode_ok_iff]
  constructor
  · rintro ⟨row, hmem, hmatch, heq⟩
    exact ⟨row, hmem, hmatch, by simpa using congrArg Instr.mnemonic heq.symm⟩
  · rintro ⟨row, hmem, hmatch, rfl⟩
    exact ⟨row, hmem, hmatch, rfl⟩

/-! ### The fixed fields of a row -/

/-- The `csr` field lies over `funct7` and `rs2` (R82, R90). -/
theorem fieldCsr_eq_append (w : Word) : fieldCsr w = fieldFunct7 w ++ fieldRs2 w := by
  conv_lhs => rw [← encodeR_fields w, fieldCsr_encodeR]

theorem fieldCsr_eq_zero_iff (w : Word) : fieldCsr w = 0#12 ↔ fieldFunct7 w = 0#7 ∧ fieldRs2 w = 0#5 := by
  rw [fieldCsr_eq_append, ← BitVec.toNat_inj, ← BitVec.toNat_inj, ← BitVec.toNat_inj, toNat_append_mul]
  simp

/-- The values of the fixed fields of a mnemonic's row (R92). -/
def FixedFields (w : Word) : Mnemonic → Prop
  | .csrr => fieldOpcode w = 0b1110011#7 ∧ fieldFunct3 w = 0b010#3 ∧ fieldRs1 w = 0b00000#5
  | .csrw => fieldOpcode w = 0b1110011#7 ∧ fieldFunct3 w = 0b001#3 ∧ fieldRd w = 0b00000#5
  | .add => fieldOpcode w = 0b0110011#7 ∧ fieldFunct3 w = 0b000#3 ∧ fieldFunct7 w = 0b0000000#7
  | .addi => fieldOpcode w = 0b0010011#7 ∧ fieldFunct3 w = 0b000#3
  | .mul => fieldOpcode w = 0b0110011#7 ∧ fieldFunct3 w = 0b000#3 ∧ fieldFunct7 w = 0b0000001#7
  | .lw => fieldOpcode w = 0b0000011#7 ∧ fieldFunct3 w = 0b010#3
  | .sw => fieldOpcode w = 0b0100011#7 ∧ fieldFunct3 w = 0b010#3
  | .jal => fieldOpcode w = 0b1101111#7
  | .jr => fieldOpcode w = 0b1100111#7 ∧ fieldFunct3 w = 0b000#3 ∧ fieldRd w = 0b00000#5 ∧ fieldCsr w = 0#12
  | .bne => fieldOpcode w = 0b1100011#7 ∧ fieldFunct3 w = 0b001#3

/-- A word matches a mnemonic's row exactly when the fields that the row's mask covers have the row's values. -/
theorem matches_row_iff (w : Word) (m : Mnemonic) :
    (∃ row ∈ opcodeMap, row.matches w = true ∧ row.mnemonic = m) ↔ FixedFields w m := by
  cases m <;>
    simp only [opcodeMap, List.exists_mem_cons_iff, List.not_mem_nil, false_and, exists_false, reduceCtorEq, and_false,
      or_false, false_or, and_true, OpRow.matches] <;>
    simp only [row_csrr, row_csrw, row_add, row_addi, row_mul, row_lw, row_sw, row_jal, row_jr, row_bne] <;>
    simp only [FixedFields, fieldCsr_eq_zero_iff, Bool.and_eq_true, beq_iff_eq] <;>
    tauto

/-- Settles O4: the operands of a mnemonic are read exactly when its row is found, whose mask and pattern fix these fields. -/
theorem decodesByTheFixedFieldsOfItsRow : Obligations.DecodesByTheFixedFieldsOfItsRow := by
  unfold Obligations.DecodesByTheFixedFieldsOfItsRow
  intro w m
  have h := decode_readOperands_iff.trans (matches_row_iff w m)
  cases m <;> exact h

/-! ### Decoding the word of an instruction -/

/-- Twelve bits split over `funct7` and `rs2`, side by side again. -/
theorem extract_append_extract_12 {n : Nat} (x : BitVec n) :
    x.extractLsb' 5 7 ++ x.extractLsb' 0 5 = x.extractLsb' 0 12 :=
  BitVec.extractLsb'_append_extractLsb'_eq_extractLsb' rfl

/-- The decoder reads back the operands the encoder wrote, each immediate being in its range (R91). -/
theorem readOperands_encode {i : Instr} (h : i.wellFormed = true) : readOperands i.mnemonic (encode i) = i := by
  cases i with
  | csrr rd csr => simp [Instr.mnemonic, readOperands, encode, encodeI_eq, fieldCsr_encodeR, extract_append_extract_12]
  | csrw csr rs1 => simp [Instr.mnemonic, readOperands, encode, encodeI_eq, fieldCsr_encodeR, extract_append_extract_12]
  | add rd rs1 rs2 => simp [Instr.mnemonic, readOperands, encode]
  | addi rd rs1 imm => simp [Instr.mnemonic, readOperands, encode, encodeI_eq, immI_encodeR, extract_append_extract_12,
      signExtend_imm12 h]
  | mul rd rs1 rs2 => simp [Instr.mnemonic, readOperands, encode]
  | lw rd rs1 imm => simp [Instr.mnemonic, readOperands, encode, encodeI_eq, immI_encodeR, extract_append_extract_12,
      signExtend_imm12 h]
  | sw rs1 rs2 imm =>
    simp [Instr.mnemonic, readOperands, encode, encodeS_eq, immS_encodeR, extract_append_extract_12, signExtend_imm12 h]
  | jal rd imm => simp [Instr.mnemonic, readOperands, immJ_encode_jal h]; simp [encode, encodeU_eq]
  | jr rs1 => simp [Instr.mnemonic, readOperands, encode, encodeI_eq]
  | bne rs1 rs2 imm => simp [Instr.mnemonic, readOperands, immB_encode_bne h]; simp [encode, encodeS_eq]

/-- The decoder finds the instruction's own row for its word, whatever the operands. -/
theorem rowOf_encode (i : Instr) : (rowOf (encode i)).map OpRow.mnemonic = some i.mnemonic := by
  cases i with
  | csrr rd csr => exact Laws.EncodeMatchesRow.csrr rd csr
  | csrw csr rs1 => exact Laws.EncodeMatchesRow.csrw csr rs1
  | add rd rs1 rs2 => exact Laws.EncodeMatchesRow.add rd rs1 rs2
  | addi rd rs1 imm => exact Laws.EncodeMatchesRow.addi rd rs1 imm
  | mul rd rs1 rs2 => exact Laws.EncodeMatchesRow.mul rd rs1 rs2
  | lw rd rs1 imm => exact Laws.EncodeMatchesRow.lw rd rs1 imm
  | sw rs1 rs2 imm => exact Laws.EncodeMatchesRow.sw rs1 rs2 imm
  | jal rd imm => exact Laws.EncodeMatchesRow.jal rd imm
  | jr rs1 => exact Laws.EncodeMatchesRow.jr rs1
  | bne rs1 rs2 imm => exact Laws.EncodeMatchesRow.bne rs1 rs2 imm

/-- Settles O2: the decoder finds the instruction's own row and reads back the operands written. -/
theorem decodeOfEncode : Obligations.DecodeOfEncode := by
  unfold Obligations.DecodeOfEncode
  intro i h
  rw [decode_of_rowOf (rowOf_encode i), readOperands_encode h]

/-! ### Encoding the instruction a word decodes to -/

/-- A value with a zero bit joined below is even, read as signed too. -/
theorem toInt_append_zero_even {n : Nat} (x : BitVec n) : (x ++ 0#1).toInt % 2 = 0 := by
  rw [BitVec.toInt_eq_msb_cond, toNat_append_mul, Nat.pow_succ]
  split <;> simp

theorem fitsImm12_signExtend (x : BitVec 12) : fitsImm12 (x.signExtend 32) = true := by
  have hlo := x.le_toInt
  have hhi := x.toInt_lt
  rw [fitsImm12, BitVec.toInt_signExtend_of_le (by decide)]
  exact decide_eq_true ⟨hlo, by omega⟩

theorem fitsImmB_immB (w : Word) : fitsImmB (immB w) = true := by
  rw [fitsImmB, immB, BitVec.toInt_signExtend_of_le (by decide)]
  generalize w.extractLsb' 31 1 ++ w.extractLsb' 7 1 ++ w.extractLsb' 25 6 ++ w.extractLsb' 8 4 = x
  have heven := toInt_append_zero_even x
  have hlo := (x ++ 0#1).le_toInt
  have hhi := (x ++ 0#1).toInt_lt
  exact decide_eq_true ⟨hlo, by omega, heven⟩

theorem fitsImmJ_immJ (w : Word) : fitsImmJ (immJ w) = true := by
  rw [fitsImmJ, immJ, BitVec.toInt_signExtend_of_le (by decide)]
  generalize w.extractLsb' 31 1 ++ w.extractLsb' 12 8 ++ w.extractLsb' 20 1 ++ w.extractLsb' 21 10 = x
  have heven := toInt_append_zero_even x
  have hlo := (x ++ 0#1).le_toInt
  have hhi := (x ++ 0#1).toInt_lt
  exact decide_eq_true ⟨hlo, by omega, heven⟩

/-- Every immediate the decoder builds is in the range of its type (R91). -/
theorem wellFormed_readOperands (m : Mnemonic) (w : Word) : (readOperands m w).wellFormed = true := by
  cases m with
  | addi | lw => exact fitsImm12_signExtend (fieldCsr w)
  | sw => exact fitsImm12_signExtend _
  | jal => exact fitsImmJ_immJ w
  | bne => exact fitsImmB_immB w
  | csrr | csrw | add | mul | jr => rfl

/-- The low bits of a field's extension are the field. -/
theorem extractLsb'_signExtend {n : Nat} (x : BitVec n) (hn : n ≤ 32) : (x.signExtend 32).extractLsb' 0 n = x := by
  apply BitVec.eq_of_getLsbD_eq
  intro k hk
  simp only [BitVec.getLsbD_extractLsb', BitVec.getLsbD_signExtend, Nat.zero_add, hk, Nat.lt_of_lt_of_le hk hn, decide_true,
    Bool.true_and, if_true]

theorem extractLsb'_immI (w : Word) : (immI w).extractLsb' 0 12 = fieldCsr w :=
  extractLsb'_signExtend (fieldCsr w) (by decide)

/-- The upper part of an S-immediate comes from `funct7` (R87). -/
theorem extractLsb'_immS_hi (w : Word) : (immS w).extractLsb' 5 7 = fieldFunct7 w := by
  apply BitVec.eq_of_getLsbD_eq
  intro k hk
  simp only [BitVec.getLsbD_extractLsb', fieldFunct7]
  grind [getLsbD_immS]

/-- The lower part of an S-immediate comes from `rd` (R87). -/
theorem extractLsb'_immS_lo (w : Word) : (immS w).extractLsb' 0 5 = fieldRd w := by
  apply BitVec.eq_of_getLsbD_eq
  intro k hk
  simp only [BitVec.getLsbD_extractLsb', fieldRd]
  grind [getLsbD_immS]

theorem scatterBHi_immB (w : Word) : scatterBHi (immB w) = fieldFunct7 w := by
  apply BitVec.eq_of_getLsbD_eq
  intro k hk
  simp only [scatterBHi, BitVec.getLsbD_append, BitVec.getLsbD_extractLsb', fieldFunct7]
  grind [getLsbD_immB]

theorem scatterBLo_immB (w : Word) : scatterBLo (immB w) = fieldRd w := by
  apply BitVec.eq_of_getLsbD_eq
  intro k hk
  simp only [scatterBLo, BitVec.getLsbD_append, BitVec.getLsbD_extractLsb', fieldRd]
  grind [getLsbD_immB]

theorem scatterJ_immJ (w : Word) : scatterJ (immJ w) = w.extractLsb' 12 20 := by
  apply BitVec.eq_of_getLsbD_eq
  intro k hk
  simp only [scatterJ, BitVec.getLsbD_append, BitVec.getLsbD_extractLsb']
  grind [getLsbD_immJ]

/-- A U-type word is its 20 upper bits, `rd` and `opcode` (R82). -/
theorem encodeU_fields (w : Word) : encodeU (w.extractLsb' 12 20) (fieldRd w) (fieldOpcode w) = w := by
  apply BitVec.eq_of_toNat_eq
  have := w.isLt
  simp only [encodeU, toNat_append_mul, fieldRd, fieldOpcode, toNat_field]
  omega

/-- An I-type word is its `csr` field and the four fields below it (R82). -/
theorem encodeI_fields (w : Word) :
    encodeI (fieldCsr w) (fieldRs1 w) (fieldFunct3 w) (fieldRd w) (fieldOpcode w) = w := by
  apply BitVec.eq_of_toNat_eq
  have := w.isLt
  simp only [encodeI, toNat_append_mul, fieldCsr, fieldRs1, fieldFunct3, fieldRd, fieldOpcode, toNat_field]
  omega

/-- The encoder writes back every field of a word: the fixed ones of its row, and the operands as the decoder reads them. -/
theorem encode_readOperands {w : Word} {m : Mnemonic} (h : FixedFields w m) : encode (readOperands m w) = w := by
  have hR := encodeR_fields w
  have hI := encodeI_fields w
  have hU := encodeU_fields w
  cases m with
  | csrr => obtain ⟨hop, hf3, hrs1⟩ := h; rwa [hop, hf3, hrs1] at hI
  | csrw => obtain ⟨hop, hf3, hrd⟩ := h; rwa [hop, hf3, hrd] at hI
  | add => obtain ⟨hop, hf3, hf7⟩ := h; rwa [hop, hf3, hf7] at hR
  | addi => obtain ⟨hop, hf3⟩ := h; rwa [hop, hf3, ← extractLsb'_immI] at hI
  | mul => obtain ⟨hop, hf3, hf7⟩ := h; rwa [hop, hf3, hf7] at hR
  | lw => obtain ⟨hop, hf3⟩ := h; rwa [hop, hf3, ← extractLsb'_immI] at hI
  | sw => obtain ⟨hop, hf3⟩ := h; rwa [hop, hf3, ← extractLsb'_immS_hi, ← extractLsb'_immS_lo] at hR
  | jal => rwa [h, ← scatterJ_immJ] at hU
  | jr => obtain ⟨hop, hf3, hrd, hcsr⟩ := h; rwa [hop, hf3, hrd, hcsr] at hI
  | bne => obtain ⟨hop, hf3⟩ := h; rwa [hop, hf3, ← scatterBHi_immB, ← scatterBLo_immB] at hR

/-- Settles O3: a word that decodes has the fixed fields of the row it decodes by, so the encoder writes every bit back. -/
theorem encodeOfDecode : Obligations.EncodeOfDecode := by
  unfold Obligations.EncodeOfDecode
  intro w i h
  obtain ⟨row, hmem, hmatch, rfl⟩ := decode_ok_iff.mp h
  have hfixed : FixedFields w row.mnemonic := (matches_row_iff w row.mnemonic).mp ⟨row, hmem, hmatch, rfl⟩
  exact ⟨wellFormed_readOperands row.mnemonic w, encode_readOperands hfixed⟩

/-! ### Words of the test vectors -/

/-- Settles O1: the decoder's value at each word of tables 2.1 and 2.2. -/
theorem decodesTheSpecsWords : Obligations.DecodesTheSpecsWords := by
  unfold Obligations.DecodesTheSpecsWords
  exact ⟨rfl, rfl, rfl, rfl, rfl, rfl, rfl, rfl, rfl, rfl, rfl, rfl, rfl⟩

end Sys2Proof
end

section
/-! Proofs of the statements about the instruction cycle (spec/10_state.md R25, R27; spec/60_exceptions.md R163) and about
the word the host places (spec/70_reset_and_hazards.md R191). -/

namespace Sys2Proof.Machine

/-! ### The checks of an address as inequalities -/

theorem aligned_eq_false_iff (a : Word) : aligned a = false ↔ a.toNat % 4 ≠ 0 := by
  rw [← Bool.not_eq_true, aligned_iff]

/-- R53 in the spec's words: not above `0x000fffff`. -/
theorem inRange_iff_le (a : Word) : inRange a = true ↔ a.toNat ≤ 0x000fffff := by
  rw [inRange_iff, memSize, Nat.lt_succ_iff]

theorem inRange_eq_false_iff (a : Word) : inRange a = false ↔ 0x000fffff < a.toNat := by
  rw [← Bool.not_eq_true, inRange_iff_le, not_le]

/-! ### A processor step by its fetch -/

/-- Taking a turn off the schedule is all that precedes a processor step. -/
theorem ProcessorTurn.eq_with_schedule {s s1 : State} (h : ProcessorTurn s s1) :
    ∃ rest, s1 = { s with schedule := rest } := by
  obtain ⟨-, rfl⟩ | ⟨rest, -, rfl⟩ := h
  · exact ⟨s1.schedule, rfl⟩
  · exact ⟨rest, rfl⟩

/-- The turn does not change what is fetched. -/
theorem ProcessorTurn.fetch_eq {s s1 : State} (h : ProcessorTurn s s1) : fetch s1 = fetch s := by
  obtain ⟨rest, rfl⟩ := h.eq_with_schedule
  rfl

theorem step_of_fetch_error {s s1 : State} {f : Fault} (turn : ProcessorTurn s s1) (h : fetch s = .error f) :
    step s = .fault f := by
  rw [step_of_processorTurn turn]
  simp only [cycle, turn.fetch_eq, h]

theorem step_of_fetch_illegal {s s1 : State} {w : Word} (turn : ProcessorTurn s s1) (h : fetch s = .ok w)
    (hw : ∀ r ∈ opcodeMap, r.matches w = false) : step s = .fault (.illegalInstruction w) := by
  rw [step_of_processorTurn turn]
  simp only [cycle, turn.fetch_eq, h, decode_of_no_row hw]

theorem step_of_fetch_decode {s s1 : State} {w : Word} {i : Instr} (turn : ProcessorTurn s s1) (h : fetch s = .ok w)
    (hd : decode w = .ok i) : step s = exec i s1 := by
  rw [step_of_processorTurn turn]
  exact cycle_of_decode (turn.fetch_eq.trans h) hd

/-- Settles O8: the hypotheses are those of a fetch that answers the word. -/
theorem stepRunsTheDecodedInstruction : Obligations.StepRunsTheDecodedInstruction := by
  unfold Obligations.StepRunsTheDecodedInstruction
  intro s s1 w i turn hal hrng htext hword hdec
  refine step_of_fetch_decode turn (fetch_ok_iff.mpr ⟨?_, ?_, ?_, hword⟩) hdec
  · exact (aligned_iff _).mpr hal
  · exact (inRange_iff_le _).mpr hrng
  · exact (inText_iff _ _).mpr htext

/-- Settles O9: each clause but the last is a line of the fetch's own list of faults; the last is the decoder's. -/
theorem fetchAndDecodeFaults : Obligations.FetchAndDecodeFaults := by
  unfold Obligations.FetchAndDecodeFaults
  intro s s1 turn
  simp only [← aligned_iff, ← aligned_eq_false_iff, ← inRange_iff_le, ← inRange_eq_false_iff, ← inText_iff]
  refine ⟨fun hal => ?misaligned, fun hal hrng => ?range, fun hal hrng htext => ?outside,
    fun hal hrng htext hnone => ?uninit, fun w hal hrng htext hword hrows => ?illegal⟩
  case misaligned => exact step_of_fetch_error turn (fetch_error_iff.mpr (.inl ⟨hal, rfl⟩))
  case range => exact step_of_fetch_error turn (fetch_error_iff.mpr (.inr (.inl ⟨hal, hrng, rfl⟩)))
  case outside => exact step_of_fetch_error turn (fetch_error_iff.mpr (.inr (.inr (.inl ⟨hal, hrng, Bool.eq_false_iff.mpr htext, rfl⟩))))
  case uninit => exact step_of_fetch_error turn (fetch_error_iff.mpr (.inr (.inr (.inr ⟨hal, hrng, htext, hnone, rfl⟩))))
  case illegal => exact step_of_fetch_illegal turn (fetch_ok_iff.mpr ⟨hal, hrng, htext, hword⟩) hrows

/-- Settles O10: a fetch looks for a value only in `TEXT`, where the invariant has one. -/
theorem fetchFindsAValueInText : Obligations.FetchFindsAValueInText := by
  unfold Obligations.FetchFindsAValueInText
  intro s a hinv hf
  obtain ⟨-, h⟩ | ⟨-, -, h⟩ | ⟨-, -, -, h⟩ | ⟨-, -, htext, hnone, -⟩ := fetch_error_iff.mp hf
  · cases h
  · cases h
  · cases h
  · obtain ⟨-, -, hsome⟩ := hinv.text.2 _ ((inText_iff _ _).mp htext)
    simp [hnone] at hsome

/-! ### The word the host places -/

/-- All 32 bits of a table word are kept. -/
theorem tableWord_toNat (w : Word) : tableWord 32 w.toNat = w := by
  rw [tableWord, Nat.mod_eq_of_lt w.isLt, BitVec.ofNat_toNat, BitVec.setWidth_eq]

/-- An instruction can stand where a word is placed. -/
theorem fetchablePc_ok (s : State) : aligned s.fetchablePc = true ∧ inRange s.fetchablePc = true := by
  unfold State.fetchablePc
  split
  · rename_i h
    exact Bool.and_eq_true_iff.mp h
  · decide

theorem fetch_placeWord (s : State) (w : Word) : fetch (s.placeWord w) = .ok w := by
  obtain ⟨hal, hrng⟩ := fetchablePc_ok s
  have htext : (s.placeWord w).inText s.fetchablePc = true :=
    (inText_iff _ _).mpr ((mem_insertText _ _ _).mpr (.inl rfl))
  exact fetch_ok_iff.mpr ⟨hal, hrng, htext, Memory.readWord_writeWord_same s.mem s.fetchablePc.toNat w⟩

/-- The next event of a state in which a word was placed is the processor's. -/
theorem processorTurn_placeWord (s : State) (w : Word) : ∃ s1, ProcessorTurn (s.placeWord w) s1 := by
  have hsched : (s.placeWord w).schedule = processorFirst s.schedule := rfl
  rcases h : s.schedule with _ | ⟨_ | m, rest⟩
  · exact ⟨_, .inl ⟨by rw [hsched, h]; rfl, rfl⟩⟩
  · exact ⟨_, .inr ⟨rest, by rw [hsched, h]; rfl, rfl⟩⟩
  · exact ⟨_, .inr ⟨.manager m :: rest, by rw [hsched, h]; rfl, rfl⟩⟩

/-- Settles O11: the placed word is fetched, and the turn is the processor's. -/
theorem placedWordIsRun : Obligations.PlacedWordIsRun := by
  unfold Obligations.PlacedWordIsRun
  intro s w i hdec
  rw [State.withFetchWord, tableWord_toNat]
  obtain ⟨s1, turn⟩ := processorTurn_placeWord s w
  exact ⟨s1, turn, step_of_fetch_decode turn (fetch_placeWord s w) hdec⟩

end Sys2Proof.Machine
end

section
/-! Proofs of the statements about one instruction each: what it answers, with its frame (spec/40_csr.md, 41_arith.md,
42_loadstore.md, 43_control.md). -/

namespace Sys2Proof.Machine

variable {s : State} {n : CsrNum} {rd rs1 rs2 : Reg} {imm : Word} {i k : Channel}

/-! ### CSR numbers (R29, R30) -/

theorem csrPort_eq_input_iff : csrPort n = .input i ↔ (n, i) ∈ inCsrs := by
  unfold csrPort inCsrs
  grind

theorem csrPort_eq_output_iff : csrPort n = .output i ↔ (n, i) ∈ outCsrs := by
  unfold csrPort outCsrs
  grind

theorem csrPort_eq_unsupported_iff : csrPort n = .unsupported ↔ (∀ i, (n, i) ∉ inCsrs) ∧ ∀ i, (n, i) ∉ outCsrs := by
  simp only [← csrPort_eq_input_iff, ← csrPort_eq_output_iff]
  cases csrPort n <;> simp

/-- Settles O12: the table of names by evaluation, the table of numbers for each answer of `csrPort`. -/
theorem csrNumbers : Obligations.CsrNumbers := by
  unfold Obligations.CsrNumbers
  refine ⟨by decide, fun n => ?_⟩
  split
  · exact csrPort_eq_input_iff.mp ‹_›
  · exact csrPort_eq_output_iff.mp ‹_›
  · exact csrPort_eq_unsupported_iff.mp ‹_›

/-! ### What each instruction answers -/

theorem exec_csrr_of_head {v : Word} {rest : List Word} (port : csrPort n = .input k) (head : s.inFifo k = v :: rest) :
    exec (.csrr rd n) s = .next ((s.setInFifo k rest).writeReg rd v).advance := by
  simp only [exec, execCsrr, csrRead_done_iff.mpr ⟨k, rest, port, head, rfl⟩]

theorem exec_csrr_of_empty (port : csrPort n = .input k) (empty : s.inFifo k = []) : exec (.csrr rd n) s = .next s := by
  simp only [exec, execCsrr, csrRead_stall_iff.mpr ⟨k, port, empty⟩]

theorem exec_csrr_of_output (port : csrPort n = .output k) :
    exec (.csrr rd n) s = .fault (.undefinedCsrAccess n .read) := by
  simp only [exec, execCsrr, csrRead_fault_iff.mpr (.inl ⟨⟨k, port⟩, rfl⟩)]

theorem exec_csrr_of_unsupported (port : csrPort n = .unsupported) : exec (.csrr rd n) s = .fault (.unsupportedCsr n) := by
  simp only [exec, execCsrr, csrRead_fault_iff.mpr (.inr ⟨port, rfl⟩)]

theorem exec_csrw_of_ready (port : csrPort n = .output k) (ready : s.outReady k = true) :
    exec (.csrw n rs1) s = .next (s.setOutFifo k (s.outFifo k ++ [s.readReg rs1])).advance := by
  simp only [exec, execCsrw, csrWrite_done_iff.mpr ⟨k, port, ready, rfl⟩]

theorem exec_csrw_of_full (port : csrPort n = .output k) (full : s.outReady k = false) :
    exec (.csrw n rs1) s = .next s := by
  simp only [exec, execCsrw, csrWrite_stall_iff.mpr ⟨k, port, full⟩]

theorem exec_csrw_of_input (port : csrPort n = .input k) :
    exec (.csrw n rs1) s = .fault (.undefinedCsrAccess n .write) := by
  simp only [exec, execCsrw, csrWrite_fault_iff.mpr (.inl ⟨⟨k, port⟩, rfl⟩)]

theorem exec_csrw_of_unsupported (port : csrPort n = .unsupported) :
    exec (.csrw n rs1) s = .fault (.unsupportedCsr n) := by
  simp only [exec, execCsrw, csrWrite_fault_iff.mpr (.inr ⟨port, rfl⟩)]

theorem exec_add : exec (.add rd rs1 rs2) s = .next (s.writeReg rd (s.readReg rs1 + s.readReg rs2)).advance := rfl

theorem exec_addi : exec (.addi rd rs1 imm) s = .next (s.writeReg rd (s.readReg rs1 + imm)).advance := rfl

theorem exec_mul : exec (.mul rd rs1 rs2) s = .next (s.writeReg rd (s.readReg rs1 * s.readReg rs2)).advance := rfl

theorem exec_lw_of_ok {v : Word} (h : memRead s (effectiveAddress s rs1 imm) = .ok v) :
    exec (.lw rd rs1 imm) s = .next (s.writeReg rd v).advance := by
  simp only [exec, execLw, h]

theorem exec_lw_of_error {f : Fault} (h : memRead s (effectiveAddress s rs1 imm) = .error f) :
    exec (.lw rd rs1 imm) s = .fault f := by
  simp only [exec, execLw, h]

theorem exec_sw_of_ok {t : State} (h : memWrite s (effectiveAddress s rs1 imm) (s.readReg rs2) = .ok t) :
    exec (.sw rs1 rs2 imm) s = .next t.advance := by
  simp only [exec, execSw, h]

theorem exec_sw_of_error {f : Fault} (h : memWrite s (effectiveAddress s rs1 imm) (s.readReg rs2) = .error f) :
    exec (.sw rs1 rs2 imm) s = .fault f := by
  simp only [exec, execSw, h]

theorem exec_jal : exec (.jal rd imm) s = .next ((s.writeReg rd (linkAddress s)).setPc (pcTarget s imm)) := rfl

theorem exec_jr : exec (.jr rs1) s = .next (s.setPc (s.readReg rs1)) := rfl

theorem exec_bne_of_ne (h : s.readReg rs1 ≠ s.readReg rs2) :
    exec (.bne rs1 rs2 imm) s = .next (s.setPc (pcTarget s imm)) := by
  simp [exec, execBne, branchTaken, h]

theorem exec_bne_of_eq (h : s.readReg rs1 = s.readReg rs2) : exec (.bne rs1 rs2 imm) s = .next s.advance := by
  simp [exec, execBne, branchTaken, h]

/-! ### Frames -/

theorem sameMemory_of_mem_eq {t : State} (h : t.mem = s.mem) : SameMemory s t := fun a => by rw [h]

/-- A result into `rd` and the next instruction: nothing else changes. -/
theorem frame_writeReg_advance (s : State) (rd : Reg) (v : Word) :
    WritesReg rd v s (s.writeReg rd v).advance ∧ (s.writeReg rd v).advance.pc = s.pc + 4#32 ∧
      SameMemory s (s.writeReg rd v).advance ∧ SameFifos s (s.writeReg rd v).advance ∧
      SameEnvironment s (s.writeReg rd v).advance :=
  ⟨writesReg_writeReg s rd v, by simp, sameMemory_of_mem_eq (by simp), by simp [SameFifos], by simp [SameEnvironment]⟩

/-- A jump without a link: nothing else changes. -/
theorem frame_setPc (s : State) (t : Word) :
    SameRegs s (s.setPc t) ∧ SameMemory s (s.setPc t) ∧ SameFifos s (s.setPc t) ∧ SameEnvironment s (s.setPc t) :=
  ⟨⟨fun _ => rfl, fun _ => rfl⟩, fun _ => rfl, ⟨rfl, rfl⟩, rfl, rfl, rfl, rfl⟩

/-! ### CSRR and CSRW -/

/-- Settles O13: the state CSRR answers is the dequeued one with the head in `rd`. -/
theorem csrrDequeues : Obligations.CsrrDequeues := by
  unfold Obligations.CsrrDequeues
  intro rd n i s v rest hn head
  refine ⟨_, exec_csrr_of_head (csrPort_eq_input_iff.mpr hn) head, ?_, by simp, ?_, ?_, by simp, ?_, ?_⟩
  · exact writesReg_writeReg (s.setInFifo i rest) rd v
  · simp [State.inFifo_setInFifo]
  · intro j hj
    simp [State.inFifo_setInFifo, hj]
  · exact sameMemory_of_mem_eq (by simp)
  · simp [SameEnvironment]

/-- Settles O14: the three ways `CSRRead` does not answer a value. -/
theorem csrrStallsOrFaults : Obligations.CsrrStallsOrFaults := by
  unfold Obligations.CsrrStallsOrFaults
  intro rd n s
  refine ⟨fun i hn empty => ?_, fun i hn => ?_, fun hin hout => ?_⟩
  · exact exec_csrr_of_empty (csrPort_eq_input_iff.mpr hn) empty
  · exact exec_csrr_of_output (csrPort_eq_output_iff.mpr hn)
  · exact exec_csrr_of_unsupported (csrPort_eq_unsupported_iff.mpr ⟨hin, hout⟩)

/-- "Ready" is having room, which an unbounded FIFO always has (D14). -/
theorem outReady_iff : s.outReady i = true ↔ ∀ k, s.config.outDepth[i] = .slots k → (s.outFifo i).length < k := by
  unfold State.outReady
  cases s.config.outDepth[i] <;> simp [Depth.hasRoom]

/-- Settles O15: the state CSRW answers is the one with the value at the tail. -/
theorem csrwEnqueues : Obligations.CsrwEnqueues := by
  unfold Obligations.CsrwEnqueues
  intro rs1 n i s hn room
  refine ⟨_, exec_csrw_of_ready (csrPort_eq_output_iff.mpr hn) (outReady_iff.mpr room), ?_, by simp, ?_, ?_, by simp, ?_, ?_⟩
  · exact ⟨fun _ => rfl, fun _ => rfl⟩
  · simp [State.outFifo_setOutFifo]
  · intro j hj
    simp [State.outFifo_setOutFifo, hj]
  · exact sameMemory_of_mem_eq (by simp)
  · simp [SameEnvironment]

/-- Settles O16: the three ways `CSRWrite` does not complete. -/
theorem csrwStallsOrFaults : Obligations.CsrwStallsOrFaults := by
  unfold Obligations.CsrwStallsOrFaults
  intro rs1 n s
  refine ⟨fun i k hn depth full => ?_, fun i hn => ?_, fun hin hout => ?_⟩
  · have notReady : s.outReady i = false := by
      rw [← Bool.not_eq_true, outReady_iff]
      exact fun room => absurd (room k depth) (by omega)
    exact exec_csrw_of_full (csrPort_eq_output_iff.mpr hn) notReady
  · exact exec_csrw_of_input (csrPort_eq_input_iff.mpr hn)
  · exact exec_csrw_of_unsupported (csrPort_eq_unsupported_iff.mpr ⟨hin, hout⟩)

/-! ### ADD, ADDI, MUL -/

/-- Settles O17: the sum of words is the sum modulo 2^32. -/
theorem addResult : Obligations.AddResult := by
  unfold Obligations.AddResult
  intro rd rs1 rs2 s
  exact ⟨_, _, exec_add, BitVec.toNat_add _ _, frame_writeReg_advance s rd _⟩

/-- Settles O18: the sum of words is the sum modulo 2^32. -/
theorem addiResult : Obligations.AddiResult := by
  unfold Obligations.AddiResult
  intro rd rs1 imm s
  exact ⟨_, _, exec_addi, BitVec.toNat_add _ _, frame_writeReg_advance s rd _⟩

/-- Settles O19: the low bits of a product depend on the operands modulo 2^32 only, so the signed reading gives the same. -/
theorem mulResult : Obligations.MulResult := by
  unfold Obligations.MulResult
  intro rd rs1 rs2 s
  have signed : s.readReg rs1 * s.readReg rs2 = BitVec.ofInt 32 ((s.readReg rs1).toInt * (s.readReg rs2).toInt) := by
    rw [BitVec.ofInt_mul, BitVec.ofInt_toInt, BitVec.ofInt_toInt]
  exact ⟨_, _, exec_mul, BitVec.toNat_mul _ _, signed, frame_writeReg_advance s rd _⟩

/-- Settles O20: a write of `x0` is discarded. -/
theorem nopChangesOnlyThePc : Obligations.NopChangesOnlyThePc := by
  unfold Obligations.NopChangesOnlyThePc
  exact ⟨rfl, rfl, fun s => rfl⟩

/-! ### LW and SW -/

theorem Memory.readWord_eq_some {m : Memory} {a : Nat} {b0 b1 b2 b3 : Byte} (h0 : m.read a = some b0)
    (h1 : m.read (a + 1) = some b1) (h2 : m.read (a + 2) = some b2) (h3 : m.read (a + 3) = some b3) :
    m.readWord a = some (wordOfBytes b0 b1 b2 b3) := by
  simp only [Memory.readWord, h0, h1, h2, h3]

/-- A word of which a byte holds no value holds none (R54). -/
theorem Memory.readWord_eq_none {m : Memory} {a k : Nat} (hk : k < 4) (h : m.read (a + k) = none) :
    m.readWord a = none := by
  unfold Memory.readWord
  split
  · interval_cases k <;> simp_all
  · rfl

/-- The weights of the four bytes (R50). -/
theorem toNat_wordOfBytes (b0 b1 b2 b3 : Byte) :
    (wordOfBytes b0 b1 b2 b3).toNat = b0.toNat + b1.toNat * 2 ^ 8 + b2.toNat * 2 ^ 16 + b3.toNat * 2 ^ 24 := by
  simp only [wordOfBytes, toNat_append_mul]
  omega

/-- Settles O21: the read answers the word of the four bytes. -/
theorem lwResult : Obligations.LwResult := by
  unfold Obligations.LwResult
  intro rd rs1 imm s b0 b1 b2 b3 hal hrng h0 h1 h2 h3
  have hread : memRead s (effectiveAddress s rs1 imm) = .ok (wordOfBytes b0 b1 b2 b3) :=
    memRead_ok_iff.mpr ⟨(aligned_iff _).mpr hal, (inRange_iff_le _).mpr hrng, Memory.readWord_eq_some h0 h1 h2 h3⟩
  exact ⟨_, _, exec_lw_of_ok hread, toNat_wordOfBytes b0 b1 b2 b3, frame_writeReg_advance s rd _⟩

/-- Settles O22: the faults of `MemRead` in its order. -/
theorem lwFaults : Obligations.LwFaults := by
  unfold Obligations.LwFaults
  intro rd rs1 imm s
  simp only [← aligned_iff, ← aligned_eq_false_iff, ← inRange_iff_le, ← inRange_eq_false_iff]
  refine ⟨fun hal => ?_, fun hal hrng => ?_, fun k hk hal hrng hnone => ?_⟩ <;>
    refine exec_lw_of_error (memRead_error_iff.mpr ?_)
  · exact .inl ⟨hal, rfl⟩
  · exact .inr (.inl ⟨hal, hrng, rfl⟩)
  · exact .inr (.inr ⟨hal, hrng, Memory.readWord_eq_none hk hnone, rfl⟩)

theorem storesWord_storeWord (s : State) (a v : Word) : StoresWord a.toNat v s (s.storeWord a v) := by
  simp only [StoresWord, State.storeWord_mem, Memory.read_writeWord]
  refine ⟨by simp [wordByte], by simp [wordByte], by simp [wordByte], by simp [wordByte], fun b hb => ?_⟩
  grind

/-- Settles O23: the write answers the state with the word stored. -/
theorem swResult : Obligations.SwResult := by
  unfold Obligations.SwResult
  intro rs1 rs2 imm s hal hrng htext
  have hwrite := memWrite_ok_iff (v := s.readReg rs2).mpr ⟨(aligned_iff _).mpr hal, (inRange_iff_le _).mpr hrng,
    Bool.eq_false_iff.mpr ((inText_iff s _).not.mpr htext), rfl⟩
  refine ⟨_, exec_sw_of_ok hwrite, storesWord_storeWord s _ _, by simp, ?_, by simp [SameFifos], by simp [SameEnvironment]⟩
  exact ⟨fun _ => rfl, fun _ => rfl⟩

/-- Settles O24: the faults of `MemWrite` in its order. -/
theorem swFaults : Obligations.SwFaults := by
  unfold Obligations.SwFaults
  intro rs1 rs2 imm s
  simp only [← aligned_iff, ← aligned_eq_false_iff, ← inRange_iff_le, ← inRange_eq_false_iff, ← inText_iff]
  refine ⟨fun hal => ?_, fun hal hrng => ?_, fun hal hrng htext => ?_⟩ <;>
    refine exec_sw_of_error (memWrite_error_iff.mpr ?_)
  · exact .inl ⟨hal, rfl⟩
  · exact .inr (.inl ⟨hal, hrng, rfl⟩)
  · exact .inr (.inr ⟨hal, hrng, htext, rfl⟩)

/-- Settles O25: the sum of words wraps, and a negative word is at least 2^31 as an address. -/
theorem effectiveAddressWraps : Obligations.EffectiveAddressWraps := by
  unfold Obligations.EffectiveAddressWraps
  intro s rs1 imm
  have base_zero : effectiveAddress s 0#5 imm = imm := by simp [effectiveAddress]
  refine ⟨BitVec.toNat_add _ _, base_zero, fun _ hneg => ?_⟩
  rw [base_zero, inRange_eq_false_iff]
  rw [BitVec.toInt_eq_toNat_cond] at hneg
  omega

/-- Settles O26: the word stored is in memory, at an address that SW found aligned and in range. -/
theorem loadAfterStore : Obligations.LoadAfterStore := by
  unfold Obligations.LoadAfterStore
  intro rs1 rs2 rd base imm imm' s t hsw haddr
  obtain ⟨hal, hrng, ht⟩ : aligned (effectiveAddress s rs1 imm) = true ∧ inRange (effectiveAddress s rs1 imm) = true ∧
      t = (s.storeWord (effectiveAddress s rs1 imm) (s.readReg rs2)).advance := by
    cases exec_next hsw with
    | sw _ _ _ hal hrng htext => exact ⟨hal, hrng, rfl⟩
  have hword : t.mem.readWord (effectiveAddress s rs1 imm).toNat = some (s.readReg rs2) := by
    rw [ht]
    exact Memory.readWord_writeWord_same s.mem _ _
  have hread : memRead t (effectiveAddress t base imm') = .ok (s.readReg rs2) := by
    rw [haddr]
    exact memRead_ok_iff.mpr ⟨hal, hrng, hword⟩
  obtain ⟨hreg, -, hmem, -⟩ := frame_writeReg_advance t rd (s.readReg rs2)
  exact ⟨_, exec_lw_of_ok hread, hreg, hmem⟩

/-! ### JAL, JR, BNE -/

/-- Settles O27: link and target are sums of the old `pc`. -/
theorem jalResult : Obligations.JalResult := by
  unfold Obligations.JalResult
  intro rd imm s
  refine ⟨_, _, exec_jal, BitVec.toNat_add _ _, BitVec.toNat_add _ _, writesReg_writeReg s rd _, ?_, ?_, ?_⟩
  · exact sameMemory_of_mem_eq (by simp)
  · simp [SameFifos]
  · simp [SameEnvironment]

/-- Settles O28: the `pc` is the register's value. -/
theorem jrResult : Obligations.JrResult := by
  unfold Obligations.JrResult
  intro rs1 s
  exact ⟨_, exec_jr, fun _ _ => rfl, frame_setPc s _⟩

/-- Settles O29: two words are the same exactly when no bit differs. -/
theorem bneResult : Obligations.BneResult := by
  unfold Obligations.BneResult
  intro rs1 rs2 imm s
  by_cases h : s.readReg rs1 = s.readReg rs2
  · refine ⟨_, exec_bne_of_eq h, ?_, fun _ => BitVec.toNat_add _ _, frame_setPc s _⟩
    rintro ⟨k, -, hk⟩
    exact absurd (by rw [h]) hk
  · refine ⟨_, exec_bne_of_ne h, fun _ => BitVec.toNat_add _ _, fun hall => ?_, frame_setPc s _⟩
    exact absurd (BitVec.eq_of_getLsbD_eq hall) h

end Sys2Proof.Machine
end

section
/-! Proofs of the statements about every instruction: what it writes and what it leaves (spec/10_state.md R21, R23, R26,
R27), and which fault it can end in (spec/60_exceptions.md R161). -/

namespace Sys2Proof.Machine

variable {s t : State} {i : Instr}

/-! ### What an instruction does to each part of the state -/

/-- An instruction writes its destination or no register at all (R23). -/
theorem exec_regs (h : exec i s = .next t) : SameRegs s t ∨ ∃ rd v, i.dest = some rd ∧ WritesReg rd v s t := by
  cases exec_next h with
  | csrrStall | csrw | csrwStall | sw | jr | bneTaken | bneNot => exact .inl ⟨fun _ => rfl, fun _ => rfl⟩
  | csrr rd _ k v rest => exact .inr ⟨rd, v, rfl, writesReg_writeReg (s.setInFifo k rest) rd v⟩
  | add rd | addi rd | mul rd | lw rd | jal rd => exact .inr ⟨rd, _, rfl, writesReg_writeReg s rd _⟩

/-- An instruction leaves memory alone or stores a word where `MemWrite` lets it (R55). -/
theorem exec_mem (h : exec i s = .next t) :
    t.mem = s.mem ∨ ∃ a v, storeAddress i s = some a ∧ aligned a = true ∧ inRange a = true ∧ s.inText a = false ∧
      t.mem = s.mem.writeWord a.toNat v := by
  cases exec_next h with
  | sw rs1 rs2 imm al rng out => exact .inr ⟨_, s.readReg rs2, rfl, al, rng, out, rfl⟩
  | csrr | csrrStall | csrw | csrwStall | add | addi | mul | lw | jal | jr | bneTaken | bneNot => exact .inl (by simp)

/-- Only a CSRR of its number changes an input FIFO, and it takes the head (R31). -/
theorem exec_inFifo (h : exec i s = .next t) (k : Channel) :
    t.inFifo k = s.inFifo k ∨ ∃ rd n v, i = .csrr rd n ∧ (n, k) ∈ inCsrs ∧ s.inFifo k = v :: t.inFifo k := by
  cases exec_next h with
  | csrr rd n j v rest port head =>
    by_cases hk : k = j
    · subst hk
      exact .inr ⟨rd, n, v, rfl, csrPort_eq_input_iff.mp port, by simpa [State.inFifo_setInFifo] using head⟩
    · exact .inl (by simp [State.inFifo_setInFifo, hk])
  | csrrStall | csrw | csrwStall | add | addi | mul | lw | sw | jal | jr | bneTaken | bneNot => exact .inl (by simp)

/-- The value an instruction writes to `out<k>`: none when it stalls or writes elsewhere (R32, R121). -/
def writtenTo (k : Channel) (i : Instr) (s : State) : List Word :=
  match i with
  | .csrw n rs1 => if (n, k) ∈ outCsrs ∧ s.outReady k = true then [s.readReg rs1] else []
  | _ => []

/-- An output FIFO grows by the value written to it (R32). -/
theorem exec_outFifo (h : exec i s = .next t) (k : Channel) : t.outFifo k = s.outFifo k ++ writtenTo k i s := by
  cases exec_next h with
  | csrw n rs1 j port ready =>
    have hk : (n, k) ∈ outCsrs ↔ k = j := by rw [← csrPort_eq_output_iff, port, CsrPort.output.injEq, eq_comm]
    by_cases e : k = j
    · subst e
      simp [writtenTo, hk, ready, State.outFifo_setOutFifo]
    · simp [writtenTo, hk, e, State.outFifo_setOutFifo]
  | csrwStall n rs1 j port full =>
    have hk : (n, k) ∈ outCsrs ↔ k = j := by rw [← csrPort_eq_output_iff, port, CsrPort.output.injEq, eq_comm]
    have : ¬ (k = j ∧ s.outReady k = true) := by
      rintro ⟨rfl, ready⟩
      simp [full] at ready
    simp [writtenTo, hk, this]
  | csrr | csrrStall | add | addi | mul | lw | sw | jal | jr | bneTaken | bneNot => simp [writtenTo]

/-- Only a CSRW of its number, finding it ready, changes an output FIFO (R32). -/
theorem writtenTo_cases (k : Channel) (i : Instr) (s : State) :
    writtenTo k i s = [] ∨ ∃ n rs1, i = .csrw n rs1 ∧ (n, k) ∈ outCsrs ∧ s.outReady k = true ∧
      writtenTo k i s = [s.readReg rs1] := by
  cases i with
  | csrw n rs1 =>
    by_cases h : (n, k) ∈ outCsrs ∧ s.outReady k = true
    · exact .inr ⟨n, rs1, rfl, h.1, h.2, if_pos h⟩
    · exact .inl (if_neg h)
  | csrr | add | addi | mul | lw | sw | jal | jr | bne => exact .inl rfl

/-- No instruction changes mode, parameters, the manager's record or its coming moves. -/
theorem exec_environment (h : exec i s = .next t) : SameEnvironment s t := by
  cases exec_next h <;> simp [SameEnvironment]

/-- Settles O32: the frame is read off what an instruction does to each part. -/
theorem instructionFrame : Obligations.InstructionFrame := by
  unfold Obligations.InstructionFrame
  intro i s t h
  refine ⟨fun r hr => ?regs, fun a ha b hb => ?bytes, fun hnone => ?memory, fun k hk => ?input, fun k hk => ?output,
    exec_environment h⟩
  case regs =>
    obtain ⟨hread, hwritten⟩ | ⟨rd, v, hdest, hread, hwritten⟩ := exec_regs h
    · exact ⟨hread r, hwritten r⟩
    · have hne : r ≠ rd := fun e => hr (e ▸ hdest)
      simp [hread, hwritten, hne]
  case bytes =>
    obtain hmem | ⟨a', v, ha', -, -, -, hmem⟩ := exec_mem h
    · rw [hmem]
    · obtain rfl : a = a' := Option.some.inj (ha.symm.trans ha')
      rw [hmem, Memory.read_writeWord_outside _ _ hb]
  case memory =>
    obtain hmem | ⟨a, v, ha, -⟩ := exec_mem h
    · exact sameMemory_of_mem_eq hmem
    · simp [hnone] at ha
  case input =>
    obtain hsame | ⟨rd, n, v, hi, hn, -⟩ := exec_inFifo h k
    · exact hsame
    · exact absurd hn (hk rd n hi)
  case output =>
    rw [exec_outFifo h k]
    obtain hnone | ⟨n, rs1, hi, hn, -⟩ := writtenTo_cases k i s
    · rw [hnone, List.append_nil]
    · exact absurd hn (hk n rs1 hi)

/-- Settles O30: the next fetch checks the target, whatever instruction set the `pc`; `TEXT` is the same for it. -/
theorem badTargetFaultsAtTheNextFetch : Obligations.BadTargetFaultsAtTheNextFetch := by
  unfold Obligations.BadTargetFaultsAtTheNextFetch
  rintro i s t - h ⟨t1, turn⟩
  obtain ⟨misaligned, above, outside, -⟩ := fetchAndDecodeFaults t t1 turn
  obtain ⟨-, hconfig, -⟩ := exec_environment h
  exact ⟨misaligned, above, hconfig ▸ outside⟩

/-! ### `x0` as a destination -/

theorem State.advance_writeReg (s : State) (r : Reg) (v : Word) : (s.writeReg r v).advance = s.advance.writeReg r v := by
  unfold State.writeReg
  split <;> rfl

theorem State.setPc_writeReg (s : State) (r : Reg) (v pc : Word) :
    (s.writeReg r v).setPc pc = (s.setPc pc).writeReg r v := by
  unfold State.writeReg
  split <;> rfl

/-- A write of any register but `x0` is all that a state without it lacks (R21). -/
theorem discardedWrite (hregs : SameRegs s t) (r : Reg) (v : Word) :
    SameRegs s t ∧ t.pc = (t.writeReg r v).pc ∧ t.mem = (t.writeReg r v).mem ∧ t.inq = (t.writeReg r v).inq ∧
      t.outq = (t.writeReg r v).outq ∧ SameEnvironment (t.writeReg r v) t := by
  simp [hregs, SameEnvironment]

/-- Settles O31: with `rd = x0` each form ends in the state that another `rd` is written in. -/
theorem x0IsHardwired : Obligations.X0IsHardwired := by
  unfold Obligations.X0IsHardwired
  refine ⟨State.readReg_zero, fun s t u i j r hij ht hu => ?_⟩
  obtain ⟨p, v, hregs, rfl⟩ : ∃ p v, SameRegs s t ∧ u = t.writeReg p v := by
    obtain ⟨n, rfl, rfl⟩ | ⟨a, b, rfl, rfl⟩ | ⟨a, imm, rfl, rfl⟩ | ⟨a, b, rfl, rfl⟩ | ⟨a, imm, rfl, rfl⟩ | ⟨imm, rfl, rfl⟩ := hij
    · cases exec_next ht with
      | csrr _ _ k v rest port head =>
        rw [exec_csrr_of_head port head] at hu
        cases hu
        exact ⟨r, v, ⟨fun _ => rfl, fun _ => rfl⟩, State.advance_writeReg _ r v⟩
      | csrrStall _ _ k port empty =>
        rw [exec_csrr_of_empty port empty] at hu
        cases hu
        exact ⟨0#5, 0#32, ⟨fun _ => rfl, fun _ => rfl⟩, rfl⟩
    · cases ht; cases hu
      exact ⟨r, _, ⟨fun _ => rfl, fun _ => rfl⟩, State.advance_writeReg s r _⟩
    · cases ht; cases hu
      exact ⟨r, _, ⟨fun _ => rfl, fun _ => rfl⟩, State.advance_writeReg s r _⟩
    · cases ht; cases hu
      exact ⟨r, _, ⟨fun _ => rfl, fun _ => rfl⟩, State.advance_writeReg s r _⟩
    · cases exec_next ht with
      | lw _ _ _ v read =>
        rw [exec_lw_of_ok read] at hu
        cases hu
        exact ⟨r, v, ⟨fun _ => rfl, fun _ => rfl⟩, State.advance_writeReg s r v⟩
    · cases ht; cases hu
      exact ⟨r, _, ⟨fun _ => rfl, fun _ => rfl⟩, State.setPc_writeReg s r _ _⟩
  exact discardedWrite hregs p v

/-! ### The next `pc` -/

/-- A number is the window on one input FIFO (R29). -/
theorem exists_inCsrs_iff {n : CsrNum} {k : Channel} (port : csrPort n = .input k) (P : Channel → Prop) :
    (∃ j, (n, j) ∈ inCsrs ∧ P j) ↔ P k := by
  simp only [← csrPort_eq_input_iff, port, CsrPort.input.injEq, exists_eq_left']

/-- A number is the window on one output FIFO (R29). -/
theorem exists_outCsrs_iff {n : CsrNum} {k : Channel} (port : csrPort n = .output k) (P : Channel → Prop) :
    (∃ j, (n, j) ∈ outCsrs ∧ P j) ↔ P k := by
  simp only [← csrPort_eq_output_iff, port, CsrPort.output.injEq, exists_eq_left']

/-- Settles O33: the state each instruction answers holds its row of R26's table. -/
theorem nextPcOfEveryInstruction : Obligations.NextPcOfEveryInstruction := by
  unfold Obligations.NextPcOfEveryInstruction
  intro i s t h
  cases exec_next h with
  | csrr rd n k v rest port head => simp [exists_inCsrs_iff port, head]
  | csrrStall rd n k port empty => simp [exists_inCsrs_iff port, empty]
  | csrw n rs1 k port ready => simp [exists_outCsrs_iff port, ready]
  | csrwStall n rs1 k port full => simp [exists_outCsrs_iff port, full]
  | bneTaken rs1 rs2 imm ne => simp [ne, pcTarget]
  | bneNot rs1 rs2 imm eq => simp [eq]
  | jal => simp [pcTarget]
  | add | addi | mul | lw | sw | jr => simp

/-! ### Faults -/

/-- Every fault an instruction can end in: that of the CSR access or of the memory access it makes (R161). -/
inductive FaultCase (s : State) : Instr → Fault → Prop where
  | csrrOutput (rd n k) (port : csrPort n = .output k) : FaultCase s (.csrr rd n) (.undefinedCsrAccess n .read)
  | csrrUnsupported (rd n) (port : csrPort n = .unsupported) : FaultCase s (.csrr rd n) (.unsupportedCsr n)
  | csrwInput (n rs1 k) (port : csrPort n = .input k) : FaultCase s (.csrw n rs1) (.undefinedCsrAccess n .write)
  | csrwUnsupported (n rs1) (port : csrPort n = .unsupported) : FaultCase s (.csrw n rs1) (.unsupportedCsr n)
  | lw (rd rs1 imm f) (read : memRead s (effectiveAddress s rs1 imm) = .error f) : FaultCase s (.lw rd rs1 imm) f
  | sw (rs1 rs2 imm f) (write : memWrite s (effectiveAddress s rs1 imm) (s.readReg rs2) = .error f) :
      FaultCase s (.sw rs1 rs2 imm) f

theorem exec_fault {f : Fault} (h : exec i s = .fault f) : FaultCase s i f := by
  cases i with
  | csrr rd n =>
    simp only [exec, execCsrr] at h
    split at h <;> cases h
    rename_i e
    obtain ⟨⟨k, port⟩, rfl⟩ | ⟨port, rfl⟩ := csrRead_fault_iff.mp e
    · exact .csrrOutput rd n k port
    · exact .csrrUnsupported rd n port
  | csrw n rs1 =>
    simp only [exec, execCsrw] at h
    split at h <;> cases h
    rename_i e
    obtain ⟨⟨k, port⟩, rfl⟩ | ⟨port, rfl⟩ := csrWrite_fault_iff.mp e
    · exact .csrwInput n rs1 k port
    · exact .csrwUnsupported n rs1 port
  | lw rd rs1 imm =>
    simp only [exec, execLw] at h
    split at h <;> cases h
    exact .lw rd rs1 imm f ‹_›
  | sw rs1 rs2 imm =>
    simp only [exec, execSw] at h
    split at h <;> cases h
    exact .sw rs1 rs2 imm f ‹_›
  | bne rs1 rs2 imm =>
    by_cases e : s.readReg rs1 = s.readReg rs2
    · rw [exec_bne_of_eq e] at h; cases h
    · rw [exec_bne_of_ne e] at h; cases h
  | add | addi | mul | jal | jr => cases h

/-- Settles O34: each fault is one of the instruction's own access. -/
theorem faultsOfEachInstruction : Obligations.FaultsOfEachInstruction := by
  unfold Obligations.FaultsOfEachInstruction
  intro i s
  refine ⟨fun f hf => ?_, exec_not_refused i s⟩
  cases exec_fault hf with
  | csrrOutput rd n k port => exact ⟨rd, k, rfl, csrPort_eq_output_iff.mp port⟩
  | csrrUnsupported rd n => exact .inl ⟨rd, rfl⟩
  | csrwInput n rs1 k port => exact ⟨rs1, k, rfl, csrPort_eq_input_iff.mp port⟩
  | csrwUnsupported n rs1 => exact .inr ⟨rs1, rfl⟩
  | lw rd rs1 imm f read =>
    obtain ⟨-, rfl⟩ | ⟨-, -, rfl⟩ | ⟨-, -, -, rfl⟩ := memRead_error_iff.mp read
    · exact .inl ⟨rd, rs1, imm, rfl⟩
    · exact .inl ⟨rd, rs1, imm, rfl⟩
    · exact ⟨rd, rs1, imm, rfl⟩
  | sw rs1 rs2 imm f write =>
    obtain ⟨-, rfl⟩ | ⟨-, -, rfl⟩ | ⟨-, -, -, rfl⟩ := memWrite_error_iff.mp write
    · exact .inr ⟨rs1, rs2, imm, rfl⟩
    · exact .inr ⟨rs1, rs2, imm, rfl⟩
    · exact ⟨rs1, rs2, imm, rfl⟩

end Sys2Proof.Machine
end

section
/-! Proofs of the statements about the invariant and the program: reset, every step, every run (spec/00_scope.md section 4;
spec/20_memory.md R64; spec/10_state.md R35, R38). -/

namespace Sys2Proof.Machine

variable {s t : State}

/-! ### Canonical memories -/

/-- A canonical memory lists exactly the bytes that read as a value. -/
theorem Memory.mem_iff_read {m : Memory} (h : m.wf) (c : Host.Cell) : c ∈ m ↔ m.read c.1 = some c.2 :=
  ⟨fun hc => Memory.read_eq_some_of_mem h.1 hc, fun hr => Memory.mem_of_read_eq_some hr⟩

/-- Settles O41: the reads say which bytes are listed, and rising addresses leave one order for them. -/
theorem canonicalMemoriesAreEqual : Obligations.CanonicalMemoriesAreEqual := by
  unfold Obligations.CanonicalMemoriesAreEqual
  intro m n hm hn hread
  have irrefl : Std.Irrefl fun c d : Host.Cell => c.1 < d.1 := ⟨fun c => Nat.lt_irrefl c.1⟩
  have antisymm : Std.Antisymm fun c d : Host.Cell => c.1 < d.1 := ⟨fun c d h h' => absurd h' (Nat.lt_asymm h)⟩
  refine List.Pairwise.eq_of_mem_iff hm.1 hn.1 fun c => ?_
  rw [Memory.mem_iff_read hm, Memory.mem_iff_read hn, hread]

/-! ### Reset -/

/-- Settles O36: each clause is a field of the launch; no register but `x0` is marked. -/
theorem resetLeaves : Obligations.ResetLeaves := by
  unfold Obligations.ResetLeaves
  intro c m x r k
  refine ⟨rfl, ?marks, fun _ => rfl, ?inputs, ?outputs, ?record, rfl, rfl⟩
  case marks => by_cases h : r = 0#5 <;> simp [State.regWritten, State.launch, h]
  case inputs => simp [State.inFifo, State.launch]
  case outputs => simp [State.outFifo, State.launch]
  case record => simp [State.receivedFrom, State.launch]

theorem Depth.holds_zero (d : Depth) : d.holds 0 = true := by cases d <;> simp [Depth.holds]

/-- Settles O38: the parameters are as the hypotheses say, and the FIFOs are empty. -/
theorem launchMeetsTheInvariant : Obligations.LaunchMeetsTheInvariant := by
  unfold Obligations.LaunchMeetsTheInvariant
  intro c m x hmem htext hdepths
  refine ⟨hmem, htext, hdepths, fun i => ?_, fun i => ?_⟩ <;>
    obtain ⟨-, -, -, hin, hout, -⟩ := resetLeaves c m x 0#5 i
  · rw [hin]; exact Depth.holds_zero _
  · rw [hout]; exact Depth.holds_zero _

/-- Settles O37: reset is a launch with no memory, no `TEXT` and unbounded FIFOs. -/
theorem resetMeetsTheInvariant : Obligations.ResetMeetsTheInvariant := by
  unfold Obligations.ResetMeetsTheInvariant
  refine launchMeetsTheInvariant Config.initial [] (Vector.replicate 31 0#32) ⟨.nil, by simp⟩ ⟨.nil, by simp [Config.initial]⟩ ?_
  intro i
  simp [Config.initial, Depth.positive]

/-! ### The events of a step -/

/-- What the processor would execute is what its fetch and its decoding answer (R25). -/
theorem nextInstr_eq_some_iff {i : Instr} : nextInstr s = some i ↔ ∃ w, fetch s = .ok w ∧ decode w = .ok i := by
  unfold nextInstr
  cases fetch s with
  | error f => simp
  | ok w => cases h : decode w <;> simp [h, Except.toOption]

/-- A processor step with an instruction to execute is that instruction's meaning (R25). -/
theorem cycle_of_nextInstr {i : Instr} (h : nextInstr s = some i) : cycle s = exec i s := by
  obtain ⟨w, hw, hi⟩ := nextInstr_eq_some_iff.mp h
  exact cycle_of_decode hw hi

theorem step_of_nextInstr {s1 : State} {i : Instr} (turn : ProcessorTurn s s1) (h : nextInstr s1 = some i) :
    step s = exec i s1 :=
  (step_of_processorTurn turn).trans (cycle_of_nextInstr h)

theorem step_of_manager {m : ManagerMove} {rest : List Turn} (h : s.schedule = .manager m :: rest) :
    step s = .next (managerMove { s with schedule := rest } m) := by
  simp only [step, event, State.takeTurn, h]

/-- The next event is the processor's or a move of the manager. -/
theorem turn_cases (s : State) : (∃ s1, ProcessorTurn s s1) ∨ ∃ m rest, s.schedule = .manager m :: rest := by
  rcases h : s.schedule with _ | ⟨_ | m, rest⟩
  · exact .inl ⟨s, .inl ⟨h, rfl⟩⟩
  · exact .inl ⟨_, .inr ⟨rest, h, rfl⟩⟩
  · exact .inr ⟨m, rest, rfl⟩

/-- Every next state of a step is an instruction's, made in the state that the turn leaves, or a move's (R195). -/
theorem step_next_cases (h : step s = .next t) :
    (∃ s1 i, ProcessorTurn s s1 ∧ nextInstr s1 = some i ∧ exec i s1 = .next t) ∨
      ∃ m rest, s.schedule = .manager m :: rest ∧ MoveCase { s with schedule := rest } m t := by
  obtain ⟨s1, turn⟩ | ⟨m, rest, hs⟩ := turn_cases s
  · rw [step_of_processorTurn turn] at h
    obtain ⟨w, i, hw, hi, hexec⟩ := cycle_next h
    exact .inl ⟨s1, i, turn, nextInstr_eq_some_iff.mpr ⟨w, hw, hi⟩, hexec⟩
  · rw [step_of_manager hs] at h
    cases h
    exact .inr ⟨m, rest, hs, managerMove_cases _ m⟩

/-! ### The invariant -/

/-- The invariant does not speak of the schedule. -/
theorem Inv.with_schedule (h : Inv s) (rest : List Turn) : Inv { s with schedule := rest } :=
  ⟨h.mem, h.text, h.depths, h.inq, h.outq⟩

theorem Inv.processorTurn {s1 : State} (h : Inv s) (turn : ProcessorTurn s s1) : Inv s1 := by
  obtain ⟨rest, rfl⟩ := turn.eq_with_schedule
  exact h.with_schedule rest

/-- A store inside the address space keeps `TEXT` legal (R64). -/
theorem TextWf.writeWord {text : List Nat} {m : Memory} (h : TextWf text m) (a : Nat) (v : Word) :
    TextWf text (m.writeWord a v) := by
  refine ⟨h.1, fun b hb => ?_⟩
  obtain ⟨hal, hrng, hsome⟩ := h.2 b hb
  exact ⟨hal, hrng, Memory.readWord_isSome_writeWord hsome a v⟩

/-- An output FIFO that is ready for a value holds it within its depth, and one that takes none holds what it held. -/
theorem holds_outFifo_writtenTo {k : Channel} (h : s.config.outDepth[k].holds (s.outFifo k).length = true) (i : Instr) :
    s.config.outDepth[k].holds (s.outFifo k ++ writtenTo k i s).length = true := by
  obtain hnone | ⟨n, rs1, -, -, ready, hone⟩ := writtenTo_cases k i s
  · rwa [hnone, List.append_nil]
  · rw [hone, List.length_append]
    exact Depth.holds_succ_of_hasRoom ready

/-- An instruction keeps the invariant. -/
theorem Inv.exec {i : Instr} (hinv : Inv s) (h : exec i s = .next t) : Inv t := by
  obtain ⟨-, hconfig, -⟩ := exec_environment h
  have hmemtext : t.mem.wf ∧ TextWf s.config.text t.mem := by
    obtain hmem | ⟨a, v, -, hal, hrng, -, hmem⟩ := exec_mem h <;> rw [hmem]
    · exact ⟨hinv.mem, hinv.text⟩
    · exact ⟨Memory.wf_writeWord hinv.mem (word_in_range hal hrng) v, hinv.text.writeWord a.toNat v⟩
  refine ⟨hmemtext.1, hconfig ▸ hmemtext.2, hconfig ▸ hinv.depths, fun k => ?inputs, fun k => ?outputs⟩
  case inputs =>
    rw [hconfig]
    refine Depth.holds_of_le ?_ (hinv.inq k)
    obtain hsame | ⟨rd, n, v, -, -, hhead⟩ := exec_inFifo h k
    · exact hsame ▸ Nat.le_refl _
    · simp [hhead]
  case outputs =>
    rw [hconfig, exec_outFifo h k]
    exact holds_outFifo_writtenTo (hinv.outq k) i

/-- A move of the manager keeps the invariant: it appends where there is room, and takes from a FIFO only. -/
theorem Inv.move {m : ManagerMove} (hinv : Inv s) (h : MoveCase s m t) : Inv t := by
  cases h with
  | enq i v room =>
    refine ⟨hinv.mem, hinv.text, hinv.depths, fun k => ?_, hinv.outq⟩
    rw [State.inFifo_setInFifo]
    split
    · subst_vars
      rw [List.length_append]
      exact Depth.holds_succ_of_hasRoom room
    · exact hinv.inq k
  | deq i v rest head =>
    refine ⟨hinv.mem, hinv.text, hinv.depths, hinv.inq, fun k => ?_⟩
    rw [State.outFifo_setReceived, State.outFifo_setOutFifo]
    refine Depth.holds_of_le ?_ (hinv.outq k)
    split
    · subst_vars
      simp [head]
    · exact Nat.le_refl _
  | disabled => exact hinv

/-- Settles O39: by the two kinds of event. -/
theorem stepKeepsTheInvariant : Obligations.StepKeepsTheInvariant := by
  unfold Obligations.StepKeepsTheInvariant
  intro s t hinv h
  obtain ⟨s1, i, turn, -, hexec⟩ | ⟨m, rest, -, hmove⟩ := step_next_cases h
  · exact (hinv.processorTurn turn).exec hexec
  · exact (hinv.with_schedule rest).move hmove

/-! ### The program -/

/-- `TEXT` is `s`'s in `t`, with the bytes it has in `s`. -/
def SameProgram (s t : State) : Prop :=
  t.config = s.config ∧ ∀ a ∈ s.config.text, ∀ k, k < 4 → t.mem.read (a + k) = s.mem.read (a + k)

theorem SameProgram.trans {u : State} (h : SameProgram s t) (h' : SameProgram t u) : SameProgram s u := by
  obtain ⟨hconfig, hbytes⟩ := h
  obtain ⟨hconfig', hbytes'⟩ := h'
  refine ⟨hconfig'.trans hconfig, fun a ha k hk => ?_⟩
  rw [hbytes' a (hconfig ▸ ha) k hk, hbytes a ha k hk]

/-- A store is to a word outside `TEXT`, and two aligned words that are not the same share no byte (R64, D17). -/
theorem sameProgram_exec {i : Instr} (hinv : Inv s) (h : exec i s = .next t) : SameProgram s t := by
  obtain ⟨-, hconfig, -⟩ := exec_environment h
  refine ⟨hconfig, fun a ha k hk => ?_⟩
  obtain hmem | ⟨b, v, -, hal, -, hout, hmem⟩ := exec_mem h <;> rw [hmem]
  have hne : a ≠ b.toNat := by
    rintro rfl
    simp [(inText_iff s b).mpr ha] at hout
  have hb : b.toNat % 4 = 0 := (aligned_iff b).mp hal
  obtain ⟨ha4, -, -⟩ := hinv.text.2 a ha
  exact Memory.read_writeWord_outside _ _ (by omega)

theorem sameProgram_move {m : ManagerMove} (h : MoveCase s m t) : SameProgram s t := by
  cases h <;> exact ⟨rfl, fun _ _ _ _ => rfl⟩

theorem sameProgram_step (hinv : Inv s) (h : step s = .next t) : SameProgram s t := by
  obtain ⟨s1, i, turn, -, hexec⟩ | ⟨m, rest, -, hmove⟩ := step_next_cases h
  · have hprog := sameProgram_exec (hinv.processorTurn turn) hexec
    obtain ⟨rest, rfl⟩ := turn.eq_with_schedule
    exact hprog
  · have hprog := sameProgram_move hmove
    exact hprog

/-- Settles O40: the invariant and the program of the first state are kept together by every step. -/
theorem programNeverChanges : Obligations.ProgramNeverChanges := by
  unfold Obligations.ProgramNeverChanges
  intro n s t hinv hrun
  have hkeep : ∀ u v : State, Inv u ∧ SameProgram s u → step u = .next v → Inv v ∧ SameProgram s v := by
    rintro u v ⟨hu, hprog⟩ hstep
    exact ⟨stepKeepsTheInvariant u v hu hstep, hprog.trans (sameProgram_step hu hstep)⟩
  exact (run_keeps hkeep ⟨hinv, rfl, fun _ _ _ _ => rfl⟩ hrun).2

end Sys2Proof.Machine
end

section
/-! Proofs of the statements about the FIFOs and the external manager (spec/10_state.md R31, R32; spec/60_exceptions.md
R173), and about runs that wait (spec/70_reset_and_hazards.md R196). -/

namespace Sys2Proof.Machine

variable {s t : State}

/-! ### One move of the manager -/

theorem managerMove_enq (s : State) (i : Channel) (v : Word) : managerMove s (.enq i v) =
    s.setInFifo i (if s.inRoom i then s.inFifo i ++ [v] else s.inFifo i) := by
  have same : s.setInFifo i (s.inFifo i) = s := by simp [State.setInFifo, State.inFifo]
  simp only [managerMove]
  split <;> simp [same]

theorem managerMove_deq (s : State) (i : Channel) : managerMove s (.deq i) =
    (s.setOutFifo i (s.outFifo i).tail).setReceived i (s.receivedFrom i ++ (s.outFifo i).take 1) := by
  have same : (s.setOutFifo i (s.outFifo i)).setReceived i (s.receivedFrom i) = s := by
    simp [State.setOutFifo, State.outFifo, State.setReceived, State.receivedFrom]
  simp only [managerMove]
  rcases h : s.outFifo i with _ | ⟨v, rest⟩
  · simpa [h] using same.symm
  · simp

/-- Settles O43: the two moves as one update each, enabled or not. -/
theorem managerMoves : Obligations.ManagerMoves := by
  unfold Obligations.ManagerMoves
  intro s m rest hs
  refine ⟨_, step_of_manager hs, ?_⟩
  cases m with
  | enq i v =>
    rw [managerMove_enq]
    refine ⟨rfl, rfl, ⟨fun _ => rfl, fun _ => rfl⟩, fun _ => rfl, rfl, rfl, ?_, fun j hj => ?_, rfl, rfl⟩
    · rw [State.inFifo_setInFifo, if_pos rfl]
      rfl
    · simp [State.inFifo_setInFifo, hj]
  | deq i =>
    rw [managerMove_deq]
    refine ⟨rfl, rfl, ⟨fun _ => rfl, fun _ => rfl⟩, fun _ => rfl, rfl, rfl, ?_, ?_, fun j hj => ⟨?_, ?_⟩, rfl⟩
    · simp [State.outFifo_setOutFifo]
    · simp [State.receivedFrom_setReceived]
    · simp [State.outFifo_setOutFifo, hj]
    · simp [State.receivedFrom_setReceived, hj]

/-! ### FIFOs over a step -/

/-- A move of the manager leaves an input FIFO alone or appends to it (R31). -/
theorem move_inFifo {m : ManagerMove} (h : MoveCase s m t) (k : Channel) :
    t.inFifo k = s.inFifo k ∨ ∃ v, m = .enq k v ∧ t.inFifo k = s.inFifo k ++ [v] := by
  cases h with
  | enq i v room =>
    by_cases hk : k = i
    · subst hk
      exact .inr ⟨v, rfl, by simp [State.inFifo_setInFifo]⟩
    · exact .inl (by simp [State.inFifo_setInFifo, hk])
  | deq | disabled => exact .inl rfl

/-- A move of the manager takes from an output FIFO into its record, so that the stream is as it was (R32). -/
theorem move_outStream {m : ManagerMove} (h : MoveCase s m t) (k : Channel) : outStream t k = outStream s k := by
  cases h with
  | deq i v rest head =>
    by_cases hk : k = i
    · subst hk
      simp [outStream, State.receivedFrom_setReceived, State.outFifo_setOutFifo, head]
    · simp [outStream, State.receivedFrom_setReceived, State.outFifo_setOutFifo, hk]
  | enq | disabled => rfl

/-- A move of the manager only appends to its record (R32). -/
theorem move_receivedFrom {m : ManagerMove} (h : MoveCase s m t) (k : Channel) :
    s.receivedFrom k <+: t.receivedFrom k := by
  cases h with
  | deq i v rest head =>
    rw [State.receivedFrom_setReceived]
    split
    · subst_vars
      exact ⟨[v], rfl⟩
    · exact ⟨[], List.append_nil _⟩
  | enq | disabled => exact ⟨[], List.append_nil _⟩

theorem exec_receivedFrom {i : Instr} (h : exec i s = .next t) (k : Channel) : t.receivedFrom k = s.receivedFrom k := by
  obtain ⟨-, -, hreceived, -⟩ := exec_environment h
  simp only [State.receivedFrom, hreceived]

/-- An instruction adds to a stream what it writes to its FIFO (R32). -/
theorem exec_outStream {i : Instr} (h : exec i s = .next t) (k : Channel) :
    outStream t k = outStream s k ++ writtenTo k i s := by
  rw [outStream, exec_receivedFrom h, exec_outFifo h, outStream, List.append_assoc]

/-- Settles O44: by the two kinds of event. -/
theorem inputFifosAreFirstInFirstOut : Obligations.InputFifosAreFirstInFirstOut := by
  unfold Obligations.InputFifosAreFirstInFirstOut
  intro s t k h
  obtain ⟨s1, i, turn, hi, hexec⟩ | ⟨m, rest, hs, hmove⟩ := step_next_cases h
  · have hsame : s1.inFifo k = s.inFifo k := by
      obtain ⟨rest, rfl⟩ := turn.eq_with_schedule
      rfl
    rw [← hsame]
    obtain hkept | ⟨rd, n, v, rfl, hn, hhead⟩ := exec_inFifo hexec k
    · exact .inl hkept
    · exact .inr (.inl ⟨s1, rd, n, v, turn, hi, hn, hhead⟩)
  · obtain hkept | ⟨v, rfl, happ⟩ := move_inFifo hmove k
    · exact .inl hkept
    · exact .inr (.inr ⟨v, rest, hs, happ⟩)

/-- Settles O45: by the two kinds of event; an instruction writes nothing or its register's value. -/
theorem outputStreamGrowsByCsrwOnly : Obligations.OutputStreamGrowsByCsrwOnly := by
  unfold Obligations.OutputStreamGrowsByCsrwOnly
  intro s t k h
  obtain ⟨s1, i, turn, hi, hexec⟩ | ⟨m, rest, hs, hmove⟩ := step_next_cases h
  · have hstream := exec_outStream hexec k
    obtain hnone | ⟨n, rs1, rfl, hn, -, hone⟩ := writtenTo_cases k i s1
    · left
      rw [hnone, List.append_nil] at hstream
      obtain ⟨rest, rfl⟩ := turn.eq_with_schedule
      exact hstream
    · right
      refine ⟨s1, n, rs1, turn, hi, hn, ?_⟩
      rw [hone] at hstream
      obtain ⟨rest, rfl⟩ := turn.eq_with_schedule
      exact hstream
  · exact .inl (move_outStream hmove k)

/-! ### Streams over a run -/

/-- What the next event writes to `out<k>` is what the next instruction writes, when the turn is the processor's. -/
theorem csrwValue_of_processorTurn {s1 : State} {i : Instr} (turn : ProcessorTurn s s1) (h : nextInstr s1 = some i)
    (k : Channel) : csrwValue k s = writtenTo k i s1 := by
  have htake : s.takeTurn = (none, s1) := by
    obtain ⟨hs, rfl⟩ | ⟨rest, hs, rfl⟩ := turn <;> simp [State.takeTurn, hs]
  simp only [csrwValue, htake, h]
  cases i <;> rfl

theorem csrwValue_of_manager {m : ManagerMove} {rest : List Turn} (h : s.schedule = .manager m :: rest) (k : Channel) :
    csrwValue k s = [] := by
  simp only [csrwValue, State.takeTurn, h]

/-- A step adds to a stream what its CSRW writes, and to the manager's record at its end only (R32). -/
theorem step_outStream (h : step s = .next t) (k : Channel) :
    outStream t k = outStream s k ++ csrwValue k s ∧ s.receivedFrom k <+: t.receivedFrom k := by
  obtain ⟨s1, i, turn, hi, hexec⟩ | ⟨m, rest, hs, hmove⟩ := step_next_cases h
  · rw [csrwValue_of_processorTurn turn hi, exec_outStream hexec, exec_receivedFrom hexec]
    obtain ⟨rest, rfl⟩ := turn.eq_with_schedule
    exact ⟨rfl, ⟨[], List.append_nil _⟩⟩
  · rw [csrwValue_of_manager hs, List.append_nil]
    exact ⟨move_outStream hmove k, move_receivedFrom hmove k⟩

/-- Settles O46: by induction over the run, each event adding what its CSRW writes. -/
theorem managerReceivesInProgramOrder : Obligations.ManagerReceivesInProgramOrder := by
  unfold Obligations.ManagerReceivesInProgramOrder
  intro n s t k hrun
  have hgrow : s.receivedFrom k <+: t.receivedFrom k ∧ outStream t k = outStream s k ++ csrwValues k n s := by
    induction n generalizing s with
    | zero =>
      cases hrun
      exact ⟨⟨[], List.append_nil _⟩, (List.append_nil _).symm⟩
    | succ n ih =>
      rw [run_succ] at hrun
      split at hrun
      · rename_i u hu
        obtain ⟨hstream, hrecord⟩ := step_outStream hu k
        obtain ⟨hrecord', hstream'⟩ := ih u hrun
        exact ⟨hrecord.trans hrecord', by rw [hstream', hstream, csrwValues_succ k n hu, List.append_assoc]⟩
      · cases hrun
      · cases hrun
  obtain ⟨⟨got, hgot⟩, hstream⟩ := hgrow
  exact ⟨⟨got, hgot.symm⟩, hstream⟩

/-! ### Runs that wait -/

/-- A state that its own step answers is the state after any number of events. -/
theorem run_of_step_self (h : step s = .next s) (n : Nat) : run n s = .next s := by
  induction n with
  | zero => rfl
  | succ n ih => simp only [run_succ, h, ih]

/-- The four instructions of R196 answer the state they started from. -/
theorem exec_self {i : Instr}
    (h : i = .jal 0#5 0#32 ∨ (∃ rs1 rs2, i = .bne rs1 rs2 0#32 ∧ s.readReg rs1 ≠ s.readReg rs2) ∨
      (∃ rd c k, i = .csrr rd c ∧ (c, k) ∈ inCsrs ∧ s.inFifo k = []) ∨
      (∃ c rs1 k, i = .csrw c rs1 ∧ (c, k) ∈ outCsrs ∧ s.outReady k = false)) : exec i s = .next s := by
  have self : s.setPc (pcTarget s 0#32) = s := by simp [State.setPc, pcTarget]
  obtain rfl | ⟨rs1, rs2, rfl, hne⟩ | ⟨rd, c, k, rfl, hc, empty⟩ | ⟨c, rs1, k, rfl, hc, full⟩ := h
  · rw [exec_jal, State.writeReg_zero, self]
  · rw [exec_bne_of_ne hne, self]
  · exact exec_csrr_of_empty (csrPort_eq_input_iff.mpr hc) empty
  · exact exec_csrw_of_full (csrPort_eq_output_iff.mpr hc) full

/-- Settles O48: with no turn to take, the step is the instruction, which answers the same state. -/
theorem endlessRunsChangeNothing : Obligations.EndlessRunsChangeNothing := by
  unfold Obligations.EndlessRunsChangeNothing
  intro s i n hsched hi hself
  refine run_of_step_self ?_ n
  rw [step_of_nextInstr (.inl ⟨hsched, rfl⟩) hi, exec_self hself]

/-! ### A stall that is lifted -/

theorem run_succ_of_step (h : step s = .next t) (n : Nat) : run (n + 1) s = run n t := by
  simp only [run_succ, h]

/-- An empty FIFO of a positive depth has room (R4, R31). -/
theorem Depth.hasRoom_zero {d : Depth} (h : d.positive = true) : d.hasRoom 0 = true := by
  cases d with
  | unbounded => rfl
  | slots n => exact h

/-- What the processor fetches depends on `pc`, memory and `TEXT` only (R25). -/
theorem fetch_congr (hpc : t.pc = s.pc) (hmem : t.mem = s.mem) (hconfig : t.config = s.config) : fetch t = fetch s := by
  unfold fetch State.inText
  rw [hpc, hmem, hconfig]

theorem nextInstr_congr (hpc : t.pc = s.pc) (hmem : t.mem = s.mem) (hconfig : t.config = s.config) :
    nextInstr t = nextInstr s := by
  unfold nextInstr
  rw [fetch_congr hpc hmem hconfig]

theorem ProcessorTurn.nextInstr_eq {s1 : State} (h : ProcessorTurn s s1) : nextInstr s1 = nextInstr s := by
  obtain ⟨rest, rfl⟩ := h.eq_with_schedule
  exact nextInstr_congr rfl rfl rfl

section WaitingCsrr

variable {s1 : State} {rd : Reg} {n : CsrNum} {i : Channel}

/-- A CSRR that finds its FIFO empty only takes its turn off the schedule (R11, D15). -/
theorem step_csrr_of_empty (turn : ProcessorTurn s s1) (hi : nextInstr s = some (.csrr rd n)) (port : csrPort n = .input i)
    (empty : s.inFifo i = []) : step s = .next s1 := by
  rw [step_of_nextInstr turn (turn.nextInstr_eq.trans hi)]
  obtain ⟨rest, rfl⟩ := turn.eq_with_schedule
  exact exec_csrr_of_empty port empty

theorem step_csrr_of_head {v : Word} {q : List Word} (turn : ProcessorTurn s s1) (hi : nextInstr s = some (.csrr rd n))
    (port : csrPort n = .input i) (head : s.inFifo i = v :: q) :
    step s = .next ((s1.setInFifo i q).writeReg rd v).advance := by
  rw [step_of_nextInstr turn (turn.nextInstr_eq.trans hi)]
  obtain ⟨rest, rfl⟩ := turn.eq_with_schedule
  exact exec_csrr_of_head port head

/-- The manager's turn to supply a value, when there is room for it (R31). -/
theorem step_manager_enq {v : Word} {rest : List Turn} (h : s.schedule = .manager (.enq i v) :: rest)
    (room : s.inRoom i = true) : step s = .next (({ s with schedule := rest } : State).setInFifo i (s.inFifo i ++ [v])) := by
  rw [step_of_manager h, managerMove_enq, State.inRoom_with_schedule, if_pos room]
  rfl

end WaitingCsrr

/-- Settles O49: the CSRR stalls, the manager appends where there is room, and the same CSRR finds the value. -/
theorem stallIsLiftedByTheManager : Obligations.StallIsLiftedByTheManager := by
  unfold Obligations.StallIsLiftedByTheManager
  intro s rd n i v hn empty hdepths hi hsched
  have port : csrPort n = .input i := csrPort_eq_input_iff.mpr hn
  have room : s.inRoom i = true := by
    rw [State.inRoom, empty]
    exact Depth.hasRoom_zero (hdepths i).1
  have stall := step_csrr_of_empty (.inr ⟨_, hsched, rfl⟩) hi port empty
  have supply := step_manager_enq (s := { s with schedule := [.manager (.enq i v), .processor] }) rfl room
  have hi' := (nextInstr_congr (t := ({ s with schedule := [.processor] } : State).setInFifo i (s.inFifo i ++ [v]))
    rfl rfl rfl).trans hi
  have complete := step_csrr_of_head (v := v) (q := []) (.inr ⟨[], rfl, rfl⟩) hi' port
    (by simp [State.inFifo_setInFifo, empty])
  have run3 := (run_succ_of_step stall 2).trans ((run_succ_of_step supply 1).trans (run_succ_of_step complete 0))
  refine ⟨_, run_succ_of_step stall 0, run3, ?reg, ?fifo, ?pc, ?memory⟩
  case reg => exact writesReg_writeReg _ rd v
  case fifo => simp [State.inFifo_setInFifo]
  case pc => simp
  case memory => exact sameMemory_of_mem_eq (by simp)

end Sys2Proof.Machine
end

section
/-! Proofs of the statements that compare two machines: states that differ in registers nothing has written (spec/10_state.md
R23, D12), and machines with other output depths (R32). -/

namespace Sys2Proof.Machine

variable {s t : State} {i : Instr}

/-! ### Updates keep the agreement on written registers -/

namespace AgreeOnWritten

theorem setPc (h : AgreeOnWritten s t) (pc : Word) : AgreeOnWritten (s.setPc pc) (t.setPc pc) :=
  ⟨rfl, h.mem, h.inq, h.outq, h.mode, h.written, h.config, h.received, h.schedule, h.regs⟩

theorem advance (h : AgreeOnWritten s t) : AgreeOnWritten s.advance t.advance := by
  rw [State.advance, State.advance, h.pc]
  exact h.setPc _

theorem storeWord (h : AgreeOnWritten s t) (a v : Word) : AgreeOnWritten (s.storeWord a v) (t.storeWord a v) :=
  ⟨h.pc, by simp [h.mem], h.inq, h.outq, h.mode, h.written, h.config, h.received, h.schedule, h.regs⟩

theorem setInFifo (h : AgreeOnWritten s t) (k : Channel) (q : List Word) :
    AgreeOnWritten (s.setInFifo k q) (t.setInFifo k q) :=
  ⟨h.pc, h.mem, by simp [State.setInFifo, h.inq], h.outq, h.mode, h.written, h.config, h.received, h.schedule, h.regs⟩

theorem setOutFifo (h : AgreeOnWritten s t) (k : Channel) (q : List Word) :
    AgreeOnWritten (s.setOutFifo k q) (t.setOutFifo k q) :=
  ⟨h.pc, h.mem, h.inq, by simp [State.setOutFifo, h.outq], h.mode, h.written, h.config, h.received, h.schedule, h.regs⟩

theorem setReceived (h : AgreeOnWritten s t) (k : Channel) (q : List Word) :
    AgreeOnWritten (s.setReceived k q) (t.setReceived k q) :=
  ⟨h.pc, h.mem, h.inq, h.outq, h.mode, h.written, h.config, by simp [State.setReceived, h.received], h.schedule, h.regs⟩

theorem with_schedule (h : AgreeOnWritten s t) (rest : List Turn) :
    AgreeOnWritten { s with schedule := rest } { t with schedule := rest } :=
  ⟨h.pc, h.mem, h.inq, h.outq, h.mode, h.written, h.config, h.received, rfl, h.regs⟩

/-- A register written with one value in both is marked in both and agrees (R36). -/
theorem writeReg (h : AgreeOnWritten s t) (r : Reg) (v : Word) : AgreeOnWritten (s.writeReg r v) (t.writeReg r v) := by
  refine ⟨by simp [h.pc], by simp [h.mem], by simp [h.inq], by simp [h.outq], by simp [h.mode], ?marks, by simp [h.config],
    by simp [h.received], by simp [h.schedule], fun p hp => ?values⟩
  case marks =>
    unfold State.writeReg
    split
    · exact h.written
    · simp [h.written]
  case values =>
    rw [State.regWritten_writeReg, Bool.or_eq_true, beq_iff_eq] at hp
    rw [State.readReg_writeReg, State.readReg_writeReg]
    obtain hwritten | rfl := hp
    · rw [h.regs p hwritten]
    · by_cases hzero : p = 0#5 <;> simp [hzero]

/-! ### What the two states have in common -/

theorem inFifo (h : AgreeOnWritten s t) (k : Channel) : s.inFifo k = t.inFifo k := by
  simp only [State.inFifo, h.inq]

theorem outFifo (h : AgreeOnWritten s t) (k : Channel) : s.outFifo k = t.outFifo k := by
  simp only [State.outFifo, h.outq]

theorem receivedFrom (h : AgreeOnWritten s t) (k : Channel) : s.receivedFrom k = t.receivedFrom k := by
  simp only [State.receivedFrom, h.received]

theorem inRoom (h : AgreeOnWritten s t) (k : Channel) : s.inRoom k = t.inRoom k := by
  rw [State.inRoom, State.inRoom, h.config, h.inFifo]

theorem outReady (h : AgreeOnWritten s t) (k : Channel) : s.outReady k = t.outReady k := by
  rw [State.outReady, State.outReady, h.config, h.outFifo]

theorem fetch (h : AgreeOnWritten s t) : fetch s = fetch t := fetch_congr h.pc h.mem h.config

theorem memRead (h : AgreeOnWritten s t) (a : Word) : memRead s a = memRead t a := by
  unfold Machine.memRead
  rw [h.mem]

theorem inText (h : AgreeOnWritten s t) (a : Word) : s.inText a = t.inText a := by
  rw [State.inText, State.inText, h.config]

end AgreeOnWritten

/-! ### Events keep the agreement -/

/-- No source is unwritten exactly when every source is written (R23). -/
theorem unwrittenSource_eq_none_iff : unwrittenSource i s = none ↔ ∀ r ∈ i.sources, s.regWritten r = true := by
  simp [unwrittenSource]

theorem outcomesAgree_csrr (h : AgreeOnWritten s t) (rd : Reg) (n : CsrNum) :
    OutcomesAgree (exec (.csrr rd n) s) (exec (.csrr rd n) t) := by
  cases port : csrPort n with
  | input k =>
    cases head : s.inFifo k with
    | nil =>
      rw [exec_csrr_of_empty port head, exec_csrr_of_empty port (h.inFifo k ▸ head)]
      exact h
    | cons v rest =>
      rw [exec_csrr_of_head port head, exec_csrr_of_head port (h.inFifo k ▸ head)]
      exact ((h.setInFifo k rest).writeReg rd v).advance
  | output k =>
    rw [exec_csrr_of_output port, exec_csrr_of_output port]
    rfl
  | unsupported =>
    rw [exec_csrr_of_unsupported port, exec_csrr_of_unsupported port]
    rfl

theorem outcomesAgree_csrw (h : AgreeOnWritten s t) (n : CsrNum) {rs1 : Reg} (h1 : s.readReg rs1 = t.readReg rs1) :
    OutcomesAgree (exec (.csrw n rs1) s) (exec (.csrw n rs1) t) := by
  cases port : csrPort n with
  | output k =>
    cases ready : s.outReady k with
    | true =>
      rw [exec_csrw_of_ready port ready, exec_csrw_of_ready port (h.outReady k ▸ ready), h.outFifo, h1]
      exact (h.setOutFifo k _).advance
    | false =>
      rw [exec_csrw_of_full port ready, exec_csrw_of_full port (h.outReady k ▸ ready)]
      exact h
  | input k =>
    rw [exec_csrw_of_input port, exec_csrw_of_input port]
    rfl
  | unsupported =>
    rw [exec_csrw_of_unsupported port, exec_csrw_of_unsupported port]
    rfl

theorem outcomesAgree_lw (h : AgreeOnWritten s t) (rd : Reg) {rs1 : Reg} (h1 : s.readReg rs1 = t.readReg rs1) (imm : Word) :
    OutcomesAgree (exec (.lw rd rs1 imm) s) (exec (.lw rd rs1 imm) t) := by
  have hread : memRead t (effectiveAddress t rs1 imm) = memRead s (effectiveAddress s rs1 imm) := by
    rw [effectiveAddress, effectiveAddress, h1, h.memRead]
  cases e : memRead s (effectiveAddress s rs1 imm) with
  | ok v =>
    rw [exec_lw_of_ok e, exec_lw_of_ok (hread.trans e)]
    exact (h.writeReg rd v).advance
  | error f =>
    rw [exec_lw_of_error e, exec_lw_of_error (hread.trans e)]
    rfl

theorem outcomesAgree_sw (h : AgreeOnWritten s t) {rs1 rs2 : Reg} (h1 : s.readReg rs1 = t.readReg rs1)
    (h2 : s.readReg rs2 = t.readReg rs2) (imm : Word) :
    OutcomesAgree (exec (.sw rs1 rs2 imm) s) (exec (.sw rs1 rs2 imm) t) := by
  have haddr : effectiveAddress s rs1 imm = effectiveAddress t rs1 imm := by rw [effectiveAddress, effectiveAddress, h1]
  cases e : memWrite s (effectiveAddress s rs1 imm) (s.readReg rs2) with
  | ok u =>
    obtain ⟨hal, hrng, htext, rfl⟩ := memWrite_ok_iff.mp e
    rw [h.inText] at htext
    rw [exec_sw_of_ok e, exec_sw_of_ok (memWrite_ok_iff.mpr ⟨haddr ▸ hal, haddr ▸ hrng, haddr ▸ htext, rfl⟩), haddr, h2]
    exact (h.storeWord _ _).advance
  | error f =>
    have e' := memWrite_error_iff.mp e
    rw [h.inText, haddr] at e'
    rw [exec_sw_of_error e, exec_sw_of_error (memWrite_error_iff.mpr e')]
    rfl

/-- An instruction whose sources agree makes outcomes that agree. -/
theorem outcomesAgree_exec (h : AgreeOnWritten s t) (hsrc : ∀ r ∈ i.sources, s.readReg r = t.readReg r) :
    OutcomesAgree (exec i s) (exec i t) := by
  cases i with
  | csrr rd n => exact outcomesAgree_csrr h rd n
  | csrw n rs1 => exact outcomesAgree_csrw h n (hsrc rs1 (by simp [Instr.sources]))
  | add rd rs1 rs2 =>
    rw [exec_add, exec_add, hsrc rs1 (by simp [Instr.sources]), hsrc rs2 (by simp [Instr.sources])]
    exact (h.writeReg rd _).advance
  | addi rd rs1 imm =>
    rw [exec_addi, exec_addi, hsrc rs1 (by simp [Instr.sources])]
    exact (h.writeReg rd _).advance
  | mul rd rs1 rs2 =>
    rw [exec_mul, exec_mul, hsrc rs1 (by simp [Instr.sources]), hsrc rs2 (by simp [Instr.sources])]
    exact (h.writeReg rd _).advance
  | lw rd rs1 imm => exact outcomesAgree_lw h rd (hsrc rs1 (by simp [Instr.sources])) imm
  | sw rs1 rs2 imm =>
    exact outcomesAgree_sw h (hsrc rs1 (by simp [Instr.sources])) (hsrc rs2 (by simp [Instr.sources])) imm
  | jal rd imm =>
    rw [exec_jal, exec_jal, linkAddress, linkAddress, pcTarget, pcTarget, h.pc]
    exact (h.writeReg rd _).setPc _
  | jr rs1 =>
    rw [exec_jr, exec_jr, hsrc rs1 (by simp [Instr.sources])]
    exact h.setPc _
  | bne rs1 rs2 imm =>
    have h1 := hsrc rs1 (by simp [Instr.sources])
    have h2 := hsrc rs2 (by simp [Instr.sources])
    by_cases e : s.readReg rs1 = s.readReg rs2
    · rw [exec_bne_of_eq e, exec_bne_of_eq (by rw [← h1, ← h2, e])]
      exact h.advance
    · rw [exec_bne_of_ne e, exec_bne_of_ne (by rwa [← h1, ← h2]), pcTarget, pcTarget, h.pc]
      exact h.setPc _

/-- A processor step: both fetch and decode alike. -/
theorem outcomesAgree_cycle (h : AgreeOnWritten s t) (hsrc : ∀ i, nextInstr s = some i → unwrittenSource i s = none) :
    OutcomesAgree (cycle s) (cycle t) := by
  cases hi : nextInstr s with
  | some i =>
    have hi' : nextInstr t = some i := by rw [nextInstr_congr h.pc.symm h.mem.symm h.config.symm, hi]
    rw [cycle_of_nextInstr hi, cycle_of_nextInstr hi']
    have written := unwrittenSource_eq_none_iff.mp (hsrc i hi)
    exact outcomesAgree_exec h fun r hr => h.regs r (written r hr)
  | none =>
    unfold cycle
    rw [← h.fetch]
    cases hf : fetch s with
    | error f => rfl
    | ok w =>
      cases hd : decode w with
      | error e => simp only [hd, OutcomesAgree]
      | ok i => simp [nextInstr_eq_some_iff.mpr ⟨w, hf, hd⟩] at hi

theorem AgreeOnWritten.managerMove (h : AgreeOnWritten s t) (m : ManagerMove) :
    AgreeOnWritten (managerMove s m) (managerMove t m) := by
  cases m with
  | enq k v =>
    rw [managerMove_enq, managerMove_enq, h.inRoom, h.inFifo]
    exact h.setInFifo k _
  | deq k =>
    rw [managerMove_deq, managerMove_deq, h.outFifo, h.receivedFrom]
    exact (h.setOutFifo k _).setReceived k _

/-- The turns of two states that agree leave states that agree. -/
theorem AgreeOnWritten.processorTurn {s1 : State} (h : AgreeOnWritten s t) (turn : ProcessorTurn s s1) :
    ∃ t1, ProcessorTurn t t1 ∧ AgreeOnWritten s1 t1 := by
  obtain ⟨hs, rfl⟩ | ⟨rest, hs, rfl⟩ := turn
  · exact ⟨t, .inl ⟨h.schedule ▸ hs, rfl⟩, h⟩
  · exact ⟨{ t with schedule := rest }, .inr ⟨rest, h.schedule ▸ hs, rfl⟩, h.with_schedule rest⟩

/-- Settles O42: both states have the same event next, and each kind of event keeps the agreement. -/
theorem unwrittenRegistersAreNotObserved : Obligations.UnwrittenRegistersAreNotObserved := by
  unfold Obligations.UnwrittenRegistersAreNotObserved
  intro s t h hsrc
  obtain ⟨s1, turn⟩ | ⟨m, rest, hs⟩ := turn_cases s
  · obtain ⟨t1, turn', h1⟩ := h.processorTurn turn
    rw [step_of_processorTurn turn, step_of_processorTurn turn']
    refine outcomesAgree_cycle h1 ?_
    obtain ⟨rest, rfl⟩ := turn.eq_with_schedule
    exact hsrc
  · rw [step_of_manager hs, step_of_manager (h.schedule ▸ hs)]
    exact (h.with_schedule rest).managerMove m

/-! ### Other output depths -/

/-- An outcome with its next state changed. -/
def mapNext (f : State → State) : Result → Result
  | .next s => .next (f s)
  | .fault r => .fault r
  | .refused q => .refused q

theorem mapNext_eq_fault_iff {f : State → State} {x : Result} {r : Fault} : mapNext f x = .fault r ↔ x = .fault r := by
  cases x <;> simp [mapNext]

section Depths

variable (s : State) (d : Vector Depth 3)

theorem withOutDepth_advance_writeReg (r : Reg) (v : Word) :
    withOutDepth (s.writeReg r v).advance d = ((withOutDepth s d).writeReg r v).advance := by
  unfold State.writeReg
  split <;> rfl

theorem withOutDepth_setPc_writeReg (r : Reg) (v pc : Word) :
    withOutDepth ((s.writeReg r v).setPc pc) d = ((withOutDepth s d).writeReg r v).setPc pc := by
  unfold State.writeReg
  split <;> rfl

variable {s}

/-- Only CSRW looks at the output depths: every other instruction does the same with others. -/
theorem exec_withOutDepth (hi : ∀ n rs1, i ≠ .csrw n rs1) :
    exec i (withOutDepth s d) = mapNext (withOutDepth · d) (exec i s) := by
  cases i with
  | csrw n rs1 => exact absurd rfl (hi n rs1)
  | csrr rd n =>
    cases port : csrPort n with
    | input k =>
      cases head : s.inFifo k with
      | nil =>
        rw [exec_csrr_of_empty port head]
        exact exec_csrr_of_empty port head
      | cons v rest =>
        rw [exec_csrr_of_head port head, mapNext, withOutDepth_advance_writeReg]
        exact exec_csrr_of_head port head
    | output k => rw [exec_csrr_of_output port, exec_csrr_of_output port, mapNext]
    | unsupported => rw [exec_csrr_of_unsupported port, exec_csrr_of_unsupported port, mapNext]
  | lw rd rs1 imm =>
    cases e : memRead s (effectiveAddress s rs1 imm) with
    | ok v =>
      rw [exec_lw_of_ok e, mapNext, withOutDepth_advance_writeReg]
      exact exec_lw_of_ok e
    | error f =>
      rw [exec_lw_of_error e, mapNext]
      exact exec_lw_of_error e
  | sw rs1 rs2 imm =>
    cases e : memWrite s (effectiveAddress s rs1 imm) (s.readReg rs2) with
    | ok u =>
      obtain ⟨hal, hrng, htext, rfl⟩ := memWrite_ok_iff.mp e
      have e' : memWrite (withOutDepth s d) (effectiveAddress s rs1 imm) (s.readReg rs2) = .ok _ :=
        memWrite_ok_iff.mpr ⟨hal, hrng, htext, rfl⟩
      rw [exec_sw_of_ok e]
      exact exec_sw_of_ok e'
    | error f =>
      have hfault := memWrite_error_iff.mp e
      have e' : memWrite (withOutDepth s d) (effectiveAddress s rs1 imm) (s.readReg rs2) = .error f :=
        memWrite_error_iff.mpr hfault
      rw [exec_sw_of_error e]
      exact exec_sw_of_error e'
  | add rd rs1 rs2 => exact congrArg Host.Outcome.next (withOutDepth_advance_writeReg s d rd _).symm
  | addi rd rs1 imm => exact congrArg Host.Outcome.next (withOutDepth_advance_writeReg s d rd _).symm
  | mul rd rs1 rs2 => exact congrArg Host.Outcome.next (withOutDepth_advance_writeReg s d rd _).symm
  | jal rd imm => exact congrArg Host.Outcome.next (withOutDepth_setPc_writeReg s d rd _ _).symm
  | jr rs1 => rfl
  | bne rs1 rs2 imm =>
    by_cases e : s.readReg rs1 = s.readReg rs2
    · rw [exec_bne_of_eq e]
      exact exec_bne_of_eq e
    · rw [exec_bne_of_ne e]
      exact exec_bne_of_ne e

/-- CSRW does the same with other depths, or stalls in one of the two machines. -/
theorem exec_csrw_withOutDepth (n : CsrNum) (rs1 : Reg) :
    exec (.csrw n rs1) (withOutDepth s d) = mapNext (withOutDepth · d) (exec (.csrw n rs1) s) ∨
      ∃ k, (n, k) ∈ outCsrs ∧ (s.outReady k = false ∨ (withOutDepth s d).outReady k = false) := by
  cases port : csrPort n with
  | input k => rw [exec_csrw_of_input port, exec_csrw_of_input port]; exact .inl rfl
  | unsupported => rw [exec_csrw_of_unsupported port, exec_csrw_of_unsupported port]; exact .inl rfl
  | output k =>
    have hk : (n, k) ∈ outCsrs := csrPort_eq_output_iff.mp port
    cases ready : s.outReady k with
    | false => exact .inr ⟨k, hk, .inl ready⟩
    | true =>
      cases ready' : (withOutDepth s d).outReady k with
      | false => exact .inr ⟨k, hk, .inr ready'⟩
      | true => rw [exec_csrw_of_ready port ready, exec_csrw_of_ready port ready']; exact .inl rfl

end Depths

/-- Settles O47: two machines with other depths do the same, but for a CSRW that stalls in one of them, and such a CSRW
faults in neither. -/
theorem outputDepthsDecideOnlyStalls : Obligations.OutputDepthsDecideOnlyStalls := by
  unfold Obligations.OutputDepthsDecideOnlyStalls
  intro i s d
  obtain hsame | ⟨n, rs1, k, rfl, hk, hfull⟩ : exec i (withOutDepth s d) = mapNext (withOutDepth · d) (exec i s) ∨
      ∃ n rs1 k, i = .csrw n rs1 ∧ (n, k) ∈ outCsrs ∧ (s.outReady k = false ∨ (withOutDepth s d).outReady k = false) := by
    by_cases hi : ∃ n rs1, i = .csrw n rs1
    · obtain ⟨n, rs1, rfl⟩ := hi
      exact (exec_csrw_withOutDepth d n rs1).imp id fun ⟨k, hk, hfull⟩ => ⟨n, rs1, k, rfl, hk, hfull⟩
    · exact .inl (exec_withOutDepth d fun n rs1 e => hi ⟨n, rs1, e⟩)
  · refine ⟨fun f => by rw [hsame, mapNext_eq_fault_iff], fun t t' ht ht' => .inl ?_⟩
    rw [hsame, ht, mapNext] at ht'
    cases ht'
    rfl
  · have port : csrPort n = .output k := csrPort_eq_output_iff.mpr hk
    have no_fault : ∀ (u : State) (f : Fault), exec (.csrw n rs1) u ≠ .fault f := by
      intro u f hf
      cases exec_fault hf with
      | csrwInput _ _ _ port' => simp [port] at port'
      | csrwUnsupported _ _ port' => simp [port] at port'
    refine ⟨fun f => by simp [no_fault], fun t t' ht ht' => .inr ⟨n, rs1, k, rfl, hk, ?_⟩⟩
    obtain hfull | hfull := hfull
    · rw [exec_csrw_of_full port hfull] at ht
      cases ht
      exact .inl ⟨hfull, rfl⟩
    · rw [exec_csrw_of_full port hfull] at ht'
      cases ht'
      exact .inr ⟨hfull, rfl⟩

end Sys2Proof.Machine
end
